-- ==== Sys2Proof/Word.lean ====
section
/-! DEFINITION. The bit-vector types of the block's event interface (30_encoding.md R46, R50, R51).
Every stored number of the block has a width that is a parameter (00_scope.md R5) and is an exact
natural number kept below its bound by the machine invariant (R8, R34; log 13). -/

namespace Sys2Proof

/-- One event word: exactly 64 bits (R46). -/
abbrev EventWord := BitVec 64

/-- A sample of the monitored lines, in the layout of R30: bit 0 the zero-crossing line, bit `k+1`
the triac-enable line of string `k`. It is the whole of bits [60:32] of the event word, so it has room for
`NSTR = 28` (R6, R50); with fewer strings the bits above `NSTR` are 0. -/
abbrev Lines := BitVec 29

/-- The `now` field of an event word, bits [31:0] (R50). -/
abbrev Stamp := BitVec 32

/-- The `voltage` field of an event word, bits [15:0] (R51). -/
abbrev Setting := BitVec 16

end Sys2Proof
end

