-- ==== Sys2Proof/Config.lean ====
section
/-! DEFINITION. The implementation parameters of 00_scope.md R5, with their defaults, and the one
open value of the spec, `MAXDC_RAW` (42_table_builder.md R72). What R6 asks of a parameter set is in
Machine/Parameters.lean. -/

namespace Sys2Proof

/-- FREE VALUE (R72, 92_eei_decisions.md D12: OPEN). The unclamped maximum active step count a machine
gives a voltage setting. The spec gives no formula, so nothing is known of it: no body, no value.
What R6 requires of it is put around it in `Params.maxdcRaw` (Machine/Parameters.lean).
Log 2; safe. -/
opaque Config.freeMaxdcRaw : Nat → Int

/-- The named parameters of R5. A run of the machine is a run at one parameter set, which no event
writes (log 1). -/
structure Params where
  /-- `NSTR`, number of strings. -/
  nstr : Nat
  /-- `TICK_US`, time-base interval in microseconds; no rule reads it. -/
  tickUs : Nat
  /-- `PWM_N`, ticks per PWM period; table length. -/
  pwmN : Nat
  /-- `L`, number of brightness levels and the maximum brightness. -/
  l : Nat
  /-- `SENTINEL`, the "never lit" threshold. -/
  sentinel : Nat
  /-- `TICK_W`, Tick Counter width. -/
  tickW : Nat
  /-- `TS_W`, timestamp width. -/
  tsW : Nat
  /-- `B_W`, brightness width. -/
  bW : Nat
  /-- `T_W`, table entry width. -/
  tW : Nat
  /-- `V_W`, voltage setting width. -/
  vW : Nat
  /-- `ATOMIC_W`, natural atomic access width. -/
  atomicW : Nat
  /-- `VF_DV`, nominal LED forward drop, tenths of a volt. -/
  vfDv : Nat
  /-- The settings at which this machine's `MAXDC_RAW` is named, as (setting, value) pairs in rising
  order of setting. At every other setting it is the free value `Config.freeMaxdcRaw` (R72, log 2). -/
  maxdcRawAt : List (Nat × Int)
  /-- `ZC_DEB_US`, zero-crossing debounce window. -/
  zcDebUs : Nat
  /-- `STR_DEB_US`, per-string re-trigger spacing. -/
  strDebUs : Nat
  /-- `WIN_US`, valid half-cycle measurement window. -/
  winUs : Nat
  /-- `BAND_EDGES_US`, the band boundaries, ascending. -/
  bandEdgesUs : List Nat
  /-- `LEVEL_OF_BAND`, level given to band 0, 1, ... -/
  levelOfBand : List Nat
  /-- `ZC_RISING`: the zero-crossing edge is the rising edge. -/
  zcRising : Bool
  /-- `OOW_RECORDS_EDGE`: an accepted edge outside the window still records `last_edge_time`. -/
  oowRecordsEdge : Bool
deriving DecidableEq, Repr

/-- The defaults of R5. `MAXDC_RAW` has none: it is left free at every setting. -/
def Params.default : Params where
  nstr := 5
  tickUs := 125
  pwmN := 64
  l := 8
  sentinel := 255
  tickW := 32
  tsW := 32
  bW := 8
  tW := 8
  vW := 16
  atomicW := 8
  vfDv := 32
  maxdcRawAt := []
  zcDebUs := 4000
  strDebUs := 1000
  winUs := 10000
  bandEdgesUs := [1000, 2000, 3000, 4000, 5000, 6000, 7000]
  levelOfBand := [8, 7, 6, 5, 4, 3, 2, 1]
  zcRising := true
  oowRecordsEdge := true

end Sys2Proof
end

