-- ==== Sys2Proof/Machine/State.lean ====
section
/-! DEFINITION. The state of the block: every element of 10_state.md R17 to R29, and three fields of
the model's own (the parameter set, the coming event words, the tuples SNAP returned). -/

namespace Sys2Proof.Machine

/-- Model faults (60_exceptions.md R106): a step that breaks one of the block's premises. Nothing is
written and the run ends. -/
inductive Fault where
  /-- Raised by TICK, EDGE, CONFIG and SNAP while `init = 0` (70_reset_and_hazards.md R122). Safe: the
  hardware has some power-on state, the spec gives none. -/
  | notReset
  /-- Raised by TICK while the table holds no value (R123). Safe: the hardware would compare against
  whatever the table storage held. -/
  | tableUnbuilt
deriving DecidableEq, Repr

/-- Refusals (60_exceptions.md R107): no state changes. -/
inductive Refusal where
  /-- An instruction with no meaning in the model. Raised by no arm of `exec` in this model. Safe. -/
  | notModelled (mnemonic : String)
  /-- Raised by `step` on a word whose `op` is 101, 110 or 111 (30_encoding.md R54). Safe. -/
  | reservedEvent
  /-- Raised by `step` on a word with a defined `op` and a 1 in a must-be-0 bit (30_encoding.md R55). Safe. -/
  | malformedEvent
  /-- Raised by `step` on a state whose parameter set breaks 00_scope.md R6 (or R36). Safe. -/
  | badParameters
deriving DecidableEq, Repr

/-- The record of one string (10_state.md R24 to R26). -/
structure StringRec where
  /-- `brightness[k]`, in `0 .. L` (R24). -/
  brightness : Nat
  /-- `last_edge_time[k]`, microseconds, `TS_W` bits (R25). -/
  lastEdgeTime : Nat
  /-- `seen[k]` (R26). -/
  seen : Bool
deriving DecidableEq, Repr

/-- The tuple a SNAP returns (44_diagnostic.md R100). -/
structure Snapshot where
  zcTs : Nat
  brightness : List Nat
  cfgDegenerate : Bool
deriving DecidableEq, Repr

/-- The state of the machine. -/
structure State where
  /-- MODEL'S OWN: the parameter set the block is built with (00_scope.md R5); no event writes it (log 1). -/
  params : Params
  /-- `init` (R17). -/
  init : Bool
  /-- `tick`, the Tick Counter, `TICK_W` bits (R18). -/
  tick : Nat
  /-- `voltage`, `V_W` bits (R20). -/
  voltage : Nat
  /-- `maxdc`, in `1 .. PWM_N` once a CONFIG has run, 0 before (R21). -/
  maxdc : Nat
  /-- `table_built` (R22). -/
  tableBuilt : Bool
  /-- `table[0 .. PWM_N-1]`, position 0 first; the empty list while the entries hold no value (R22, log 7). -/
  table : List Nat
  /-- `cfg_degenerate` (R23). -/
  cfgDegenerate : Bool
  /-- The per-string records, string 0 first (R24 to R26). -/
  strings : List StringRec
  /-- `zc_ts`, microseconds, `TS_W` bits (R27). -/
  zcTs : Nat
  /-- `prev_in` (R28). -/
  prevIn : Lines
  /-- `out`, the output latch, string 0 first (R29). -/
  out : List Bool
  /-- MODEL'S OWN: the event words the agents send next, oldest first (R11, R13; log 5). -/
  events : List EventWord
  /-- MODEL'S OWN: the tuples SNAP has returned, oldest first (R14, R100; log 6). -/
  snapshots : List Snapshot
deriving DecidableEq, Repr

/-- The machine right after `reset in=0b000000` at the default parameters: the values of R119, with all
input lines low (DESIGN CHOICE, log 3: RESET carries the levels, and the spec names none), no event
word waiting and no snapshot taken. -/
def State.reset : State where
  params := Params.default
  init := true
  tick := 0
  voltage := 0
  maxdc := 0
  tableBuilt := false
  table := []
  cfgDegenerate := false
  strings := List.replicate Params.default.nstr { brightness := 0, lastEdgeTime := 0, seen := false }
  zcTs := 0
  prevIn := 0#29
  out := List.replicate Params.default.nstr false
  events := []
  snapshots := []

/-- Before the first RESET (R17, R122): `init` is 0 and no other element holds a value. What stands in
the other fields is read by no event (log 4). -/
def State.powerOn (p : Params) : State :=
  { State.reset with params := p, init := false, strings := [], out := [] }

end Sys2Proof.Machine
end

