-- ==== Sys2Proof/Syntax.lean ====
section
/-! DEFINITION. The five events of 00_scope.md R11, one constructor per row of spec/opcode_table.json.
Operands are the fields of the event word (30_encoding.md R48 to R53, R56). -/

namespace Sys2Proof

/-- An event of the block. -/
inductive Instr where
  /-- TICK, the time-base interrupt (40_time_base.md R59). No operands. -/
  | tick
  /-- EDGE, the input-change interrupt (43_edge_detector.md R81): the sampled lines and the timestamp. -/
  | edge (inp : Lines) (now : Stamp)
  /-- CONFIG, voltage setting and table build (42_table_builder.md R71). -/
  | config (voltage : Setting)
  /-- SNAP, diagnostic snapshot read (44_diagnostic.md R100). No operands. -/
  | snap
  /-- RESET, platform reset (70_reset_and_hazards.md R119): the line levels present at reset. -/
  | reset (inp : Lines)
deriving DecidableEq, Repr

end Sys2Proof
end

