-- ==== Sys2Proof/Machine/Operands.lean ====
section
/-! DEFINITION. The operand forms of the events: the levels of the sampled lines (10_state.md R30) and
the numbers the operand fields stand for (30_encoding.md R56). -/

namespace Sys2Proof.Machine

/-- The level of the zero-crossing line: bit 0 (R30). -/
def zcLine (inp : Lines) : Bool := inp.getLsbD 0

/-- The level of the triac-enable line of string `k`: bit `k+1` (R30). -/
def stringLine (inp : Lines) (k : Nat) : Bool := inp.getLsbD (k + 1)

/-- The change set of an EDGE, bit by bit (43_edge_detector.md R82). -/
def changeSet (inp prev : Lines) : Lines := inp ^^^ prev

/-- The timestamp operand as a number of microseconds, zero-extended (R31, R56). -/
def stampValue (now : Stamp) : Nat := now.toNat

/-- The setting operand as a number of tenths of a volt, zero-extended (R20, R56). -/
def settingValue (voltage : Setting) : Nat := voltage.toNat

end Sys2Proof.Machine
end

