-- ==== Sys2Proof/Machine/Parameters.lean ====
section
/-! DEFINITION. What 00_scope.md R6 (and 20_memory.md R36) asks of a parameter set, and `MAXDC_RAW` as
the total function of 42_table_builder.md R72. -/

namespace Sys2Proof

/-- Strictly ascending. -/
def ascending : List Nat → Bool
  | [] => true
  | [_] => true
  | a :: b :: rest => decide (a < b) && ascending (b :: rest)

/-- Non-increasing. -/
def nonIncreasing : List Nat → Bool
  | [] => true
  | [_] => true
  | a :: b :: rest => decide (b ≤ a) && nonIncreasing (b :: rest)

/-- The constraints of R6, in its order, then `B_W <= ATOMIC_W` (R36, R124; log 14). The listed values of
`MAXDC_RAW` stand in rising order of setting (the model's canonical form, log 2). -/
abbrev Params.Wf (p : Params) : Prop :=
  (1 ≤ p.nstr ∧ p.nstr ≤ 28) ∧
  (1 ≤ p.pwmN ∧ p.pwmN ≤ 2 ^ 16) ∧
  (1 ≤ p.l ∧ p.l < p.sentinel ∧ p.sentinel ≤ 2 ^ p.tW - 1) ∧
  p.l ≤ 2 ^ p.bW - 1 ∧
  (p.bandEdgesUs.length = 7 ∧ ascending p.bandEdgesUs = true ∧ ∀ e ∈ p.bandEdgesUs, e < p.winUs) ∧
  (p.levelOfBand.length = 8 ∧ nonIncreasing p.levelOfBand = true ∧ ∀ v ∈ p.levelOfBand, 1 ≤ v ∧ v ≤ p.l) ∧
  (p.zcDebUs < 2 ^ p.tsW ∧ p.strDebUs < 2 ^ p.tsW ∧ p.winUs < 2 ^ p.tsW) ∧
  (ascending (p.maxdcRawAt.map Prod.fst) = true ∧ ∀ e ∈ p.maxdcRawAt, e.1 ≤ p.vfDv → e.2 ≤ 0) ∧
  p.tsW ≤ 32 ∧
  p.bW ≤ p.atomicW

/-- The named value at setting `v`, if this parameter set names one. -/
def rawAt : List (Nat × Int) → Nat → Option Int
  | [], _ => none
  | (u, r) :: rest, v => if u = v then some r else rawAt rest v

/-- `MAXDC_RAW(voltage)` (R72): the named value where the parameter set names one, else the free value,
kept at or below 0 for settings at or below `VF_DV` as R6 requires (log 2). -/
def Params.maxdcRaw (p : Params) (v : Nat) : Int :=
  match rawAt p.maxdcRawAt v with
  | some r => r
  | none => if v ≤ p.vfDv then min 0 (Config.freeMaxdcRaw v) else Config.freeMaxdcRaw v

end Sys2Proof
end

