-- ==== Sys2Proof/Machine/Flags.lean ====
section
/-! DEFINITION. Every flag and every acceptance test of the block (10_state.md R32; 43_edge_detector.md
R84, R85, R91, R92; 42_table_builder.md R73; 41_output_driver.md R64). -/

namespace Sys2Proof.Machine

/-- Elapsed time between two timestamps, modulo `2^TS_W` (00_scope.md R9). -/
def elapsed (p : Params) (now past : Nat) : Nat :=
  (((now : Int) - (past : Int)) % ((2 ^ p.tsW : Nat) : Int)).toNat

/-- A change of bit 0 to the level of the zero-crossing edge (R84). -/
def isZcEdge (p : Params) (changed inp : Lines) : Bool :=
  zcLine changed && (zcLine inp == p.zcRising)

/-- A zero-crossing edge is accepted only strictly after the debounce window (R85). -/
def zcAccepted (p : Params) (changed inp : Lines) (now zcTs : Nat) : Bool :=
  isZcEdge p changed inp && decide (elapsed p now zcTs > p.zcDebUs)

/-- A change of string `k`'s line, in either direction, is accepted from `STR_DEB_US` on (R90, R91). -/
def stringAccepted (p : Params) (changed : Lines) (now : Nat) (k : Nat) (r : StringRec) : Bool :=
  stringLine changed k && decide (elapsed p now r.lastEdgeTime ≥ p.strDebUs)

/-- A delay is inside the valid half-cycle window (R92). -/
def inWindow (p : Params) (dt : Nat) : Bool := decide (dt < p.winUs)

/-- `cfg_degenerate` (R73): the unclamped step count is below 1. -/
def degenerate (raw : Int) : Bool := decide (raw < 1)

/-- The comparator (R64): lit exactly when the brightness is at least the threshold. -/
def outputDriver (b thr : Nat) : Bool := decide (b ≥ thr)

end Sys2Proof.Machine
end

