-- ==== Sys2Proof/Machine/Ops.lean ====
section
/-! DEFINITION. The operations the events are built from. The block has no memory (20_memory.md R33) and
no exceptions (60_exceptions.md R103): in place of exception entry stand the two guards of R106, the one
way a step ends in a model fault. -/

namespace Sys2Proof.Machine

/-- What a step of this machine ends in. -/
abbrev Result := Host.Outcome State Fault Refusal

/-- The guard of every event but RESET: `NotReset` while `init = 0` (70_reset_and_hazards.md R122). -/
def ifReset (s : State) (r : Result) : Result := if s.init then r else .fault .notReset

/-- Read `table[pos]` and go on with it: `TableUnbuilt` while `table_built = 0` (R123). An entry that is
not there holds no value and faults the same way (log 7; no such entry in a state that meets the invariant). -/
def withEntry (s : State) (pos : Nat) (k : Nat → Result) : Result :=
  if s.tableBuilt then
    match s.table[pos]? with
    | some thr => k thr
    | none => .fault .tableUnbuilt
  else .fault .tableUnbuilt

/-- The Tick Counter after one TICK (40_time_base.md R60). -/
def nextTick (p : Params) (tick : Nat) : Nat := (tick + 1) % 2 ^ p.tickW

/-- The cycle position of a Tick Counter value (10_state.md R19, 40_time_base.md R61). -/
def cyclePos (p : Params) (tick : Nat) : Nat := tick % p.pwmN

/-- The output latch a TICK writes: every string's comparison with one table entry (R62, R65, R66). -/
def driveAll (strings : List StringRec) (thr : Nat) : List Bool :=
  strings.map fun r => outputDriver r.brightness thr

/-- `maxdc`: the unclamped step count clamped to `1 .. PWM_N` (42_table_builder.md R73). -/
def clampMaxdc (p : Params) (raw : Int) : Nat :=
  if raw < 1 then 1 else if raw > (p.pwmN : Int) then p.pwmN else raw.toNat

/-- One table entry: the ramp below `maxdc` (R74), the sentinel from there on (R75). -/
def tableEntry (p : Params) (m i : Nat) : Nat := if i < m then i * p.l / m + 1 else p.sentinel

/-- The Duty-Cycle Table of a step count (R71). -/
def buildTable (p : Params) (m : Nat) : List Nat := (List.range p.pwmN).map (tableEntry p m)

/-- The band of a delay: how many boundaries it has reached (43_edge_detector.md R93). -/
def band (p : Params) (dt : Nat) : Nat := p.bandEdgesUs.countP fun e => decide (dt ≥ e)

/-- `Level(dt)` (R93). At a well-formed parameter set the band always has a level; the 0 stands for a
band without one, which no step reaches (log 15). -/
def level (p : Params) (dt : Nat) : Nat := p.levelOfBand.getD (band p dt) 0

/-- Boundary resolution of string `k` at an accepted zero-crossing (R88). -/
def resolve (p : Params) (inp : Lines) (k : Nat) (r : StringRec) : StringRec :=
  if r.seen then r else { r with brightness := if stringLine inp k then p.l else 0 }

/-- Clearing of the `seen` flag at an accepted zero-crossing (R89). -/
def clearSeen (r : StringRec) : StringRec := { r with seen := false }

/-- The zero-crossing part of an EDGE (R84 to R89), taken first (R96). -/
def zcPart (changed inp : Lines) (now : Nat) (s : State) : State :=
  if zcAccepted s.params changed inp now s.zcTs then
    { s with
      zcTs := now
      strings := (s.strings.mapIdx (resolve s.params inp)).map clearSeen }
  else s

/-- What an EDGE does to string `k`'s record, `zcTs` being the reference after the zero-crossing part
(R90 to R95). -/
def measureEdge (p : Params) (changed : Lines) (now zcTs : Nat) (k : Nat) (r : StringRec) : StringRec :=
  if stringAccepted p changed now k r then
    if inWindow p (elapsed p now zcTs) then
      { brightness := level p (elapsed p now zcTs), lastEdgeTime := now, seen := true }
    else if p.oowRecordsEdge then { r with lastEdgeTime := now }
    else r
  else r

/-- The string part of an EDGE, every string in ascending index (R90 to R96). -/
def stringPart (changed : Lines) (now : Nat) (s : State) : State :=
  { s with strings := s.strings.mapIdx (measureEdge s.params changed now s.zcTs) }

/-- The tuple a SNAP returns (44_diagnostic.md R100). -/
def State.snapshot (s : State) : Snapshot where
  zcTs := s.zcTs
  brightness := s.strings.map StringRec.brightness
  cfgDegenerate := s.cfgDegenerate

/-- The record of a string after RESET (70_reset_and_hazards.md R119). -/
def StringRec.cleared : StringRec where
  brightness := 0
  lastEdgeTime := 0
  seen := false

end Sys2Proof.Machine
end

