-- ==== Sys2Proof/Machine/Diagnostic.lean ====
section
/-! DEFINITION. SNAP, the diagnostic snapshot read (44_diagnostic.md R100 to R102). -/

namespace Sys2Proof.Machine

/-- SNAP (R100): return the tuple, write no element of the block. The returned tuple is handed to the
diagnostic reader, the model's own field `snapshots` (log 6). -/
def execSnap (s : State) : Result :=
  ifReset s <| .next { s with snapshots := s.snapshots ++ [s.snapshot] }

end Sys2Proof.Machine
end

