-- ==== Sys2Proof/Machine/EdgeDetector.lean ====
section
/-! DEFINITION. EDGE, the edge detector and phase measurement (43_edge_detector.md R81 to R99). -/

namespace Sys2Proof.Machine

/-- EDGE (R81): take the change set, record the sample (R82), then the zero-crossing part, then the
string part (R96). -/
def execEdge (inp : Lines) (now : Stamp) (s : State) : Result :=
  ifReset s <|
    .next <|
      stringPart (changeSet inp s.prevIn) (stampValue now) <|
        zcPart (changeSet inp s.prevIn) inp (stampValue now) { s with prevIn := inp }

end Sys2Proof.Machine
end

