-- ==== Sys2Proof/Machine/PlatformReset.lean ====
section
/-! DEFINITION. RESET, platform reset of any cause (70_reset_and_hazards.md R119, R120). -/

namespace Sys2Proof.Machine

/-- RESET (R119): every element of 10_state.md to its reset value, `prev_in` to the levels the event
carries. Allowed in every state. -/
def execReset (inp : Lines) (s : State) : Result :=
  .next { s with
    init := true
    tick := 0
    voltage := 0
    maxdc := 0
    tableBuilt := false
    table := []
    cfgDegenerate := false
    strings := List.replicate s.params.nstr StringRec.cleared
    zcTs := 0
    prevIn := inp
    out := List.replicate s.params.nstr false }

end Sys2Proof.Machine
end

