-- ==== Sys2Proof/Machine/TableBuilder.lean ====
section
/-! DEFINITION. CONFIG, the table builder (42_table_builder.md R71 to R80). -/

namespace Sys2Proof.Machine

/-- CONFIG (R71): store the setting, clamp its step count, flag the degenerate case, build the table. -/
def execConfig (voltage : Setting) (s : State) : Result :=
  ifReset s <|
    .next { s with
      voltage := settingValue voltage
      maxdc := clampMaxdc s.params (s.params.maxdcRaw (settingValue voltage))
      cfgDegenerate := degenerate (s.params.maxdcRaw (settingValue voltage))
      table := buildTable s.params (clampMaxdc s.params (s.params.maxdcRaw (settingValue voltage)))
      tableBuilt := true }

end Sys2Proof.Machine
end

