-- ==== Sys2Proof/Machine/TimeBase.lean ====
section
/-! DEFINITION. TICK, with the output driver inside it (40_time_base.md R59 to R63; 41_output_driver.md
R64 to R70). -/

namespace Sys2Proof.Machine

/-- TICK (R59): advance the counter, take the position after the increment (R61), drive every string. -/
def execTick (s : State) : Result :=
  ifReset s <|
    withEntry s (cyclePos s.params (nextTick s.params s.tick)) fun thr =>
      .next { s with
        tick := nextTick s.params s.tick
        out := driveAll s.strings thr }

end Sys2Proof.Machine
end

