-- ==== Sys2Proof/Machine/Dispatch.lean ====
section
/-! DEFINITION. One arm per event: which meaning each constructor of Instr has. -/

namespace Sys2Proof.Machine

/-- The meaning of an event. -/
def exec (i : Instr) (s : State) : Host.Outcome State Fault Refusal :=
  match i with
  | .tick => Sys2Proof.Machine.execTick s
  | .edge inp now => Sys2Proof.Machine.execEdge inp now s
  | .config voltage => Sys2Proof.Machine.execConfig voltage s
  | .snap => Sys2Proof.Machine.execSnap s
  | .reset inp => Sys2Proof.Machine.execReset inp s

end Sys2Proof.Machine
end

