-- ==== Sys2Proof/WellFormed.lean ====
section
/-! DEFINITION. Which event terms the event word can spell at a parameter set (30_encoding.md R49 to
R51, R53): no line above `NSTR`, no timestamp bit at or above `TS_W`, no setting bit at or above `V_W`. -/

namespace Sys2Proof

/-- A line sample has a level for lines `0 .. NSTR` only (R30, R50). -/
def linesFit (p : Params) (inp : Lines) : Bool := decide (inp.toNat < 2 ^ (p.nstr + 1))

/-- A timestamp is below `2^TS_W` (R31, R50). -/
def stampFits (p : Params) (now : Stamp) : Bool := decide (now.toNat < 2 ^ p.tsW)

/-- A setting is below `2^V_W` (R20; for `V_W < 16`, log 8). -/
def settingFits (p : Params) (voltage : Setting) : Bool := decide (voltage.toNat < 2 ^ p.vW)

/-- The event can be spelled by an event word at these parameters. -/
def Instr.wellFormed (p : Params) : Instr → Bool
  | .tick => true
  | .edge inp now => linesFit p inp && stampFits p now
  | .config voltage => settingFits p voltage
  | .snap => true
  | .reset inp => linesFit p inp

end Sys2Proof
end

