-- ==== Sys2Proof/Decode.lean ====
section
/-! DEFINITION. The decoder of event words, total on all 64-bit words, and the encoder
(30_encoding.md R46 to R56). The event word is a number with numbered bits, not a byte sequence
(20_memory.md R34), so decoding reads one 64-bit number. -/

namespace Sys2Proof

/-- `w[hi:lo]` of R8: the field of bits `hi` down to `lo`, as an unsigned number. -/
def field (w : EventWord) (hi lo : Nat) : Nat := w.toNat / 2 ^ lo % 2 ^ (hi + 1 - lo)

/-- Bits `[hi:lo]` are all 0. An empty range (`hi < lo`) is all 0. -/
def clear (w : EventWord) (hi lo : Nat) : Bool := field w hi lo == 0

/-- What a word decodes to: one event, or one of the two refusals of R54 and R55. -/
inductive Decoded where
  | event (i : Instr)
  | reservedEvent
  | malformedEvent
deriving DecidableEq, Repr

/-- The event, when every must-be-0 bit is 0; malformed otherwise (R55). -/
def eventIf (mustBeZero : Bool) (i : Instr) : Decoded :=
  if mustBeZero then .event i else .malformedEvent

/-- `in = word[32+NSTR:32]` (R50, R56). -/
def linesOperand (p : Params) (w : EventWord) : Lines := BitVec.ofNat 29 (field w (32 + p.nstr) 32)

/-- `now = word[31:0]` (R50, R56). -/
def stampOperand (w : EventWord) : Stamp := BitVec.ofNat 32 (field w 31 0)

/-- `voltage = word[15:0]` (R51, R56). -/
def settingOperand (w : EventWord) : Setting := BitVec.ofNat 16 (field w 15 0)

/-- The decoder (R47 to R55). Which bits must be 0 depends on `NSTR` (R49, R53) and on `TS_W` (R50);
for `V_W < 16` bits `[15:V_W]` of CONFIG must be 0 too (DEDUCED from R50's rule for `TS_W`, log 8). -/
def decode (p : Params) (w : EventWord) : Decoded :=
  match field w 63 61 with
  | 0 => eventIf (clear w 60 0) .tick
  | 1 => eventIf (clear w 60 (33 + p.nstr) && clear w 31 p.tsW) (.edge (linesOperand p w) (stampOperand w))
  | 2 => eventIf (clear w 60 16 && clear w 15 p.vW) (.config (settingOperand w))
  | 3 => eventIf (clear w 60 0) .snap
  | 4 => eventIf (clear w 60 (33 + p.nstr) && clear w 31 0) (.reset (linesOperand p w))
  | _ => .reservedEvent

/-- The `op` field of an event (R47). -/
def Instr.op : Instr → BitVec 3
  | .tick => 0b000#3
  | .edge _ _ => 0b001#3
  | .config _ => 0b010#3
  | .snap => 0b011#3
  | .reset _ => 0b100#3

/-- The encoder (R48 to R53): `op` in [63:61], the lines from bit 32 up, the timestamp in [31:0], the
setting in [15:0], every other bit 0. -/
def encode : Instr → EventWord
  | .tick => 0b000#3 ++ 0#61
  | .edge inp now => 0b001#3 ++ inp ++ now
  | .config voltage => 0b010#3 ++ 0#45 ++ voltage
  | .snap => 0b011#3 ++ 0#61
  | .reset inp => 0b100#3 ++ inp ++ 0#32

/-- The (match, mask) pairs of spec/opcode_table.json, which is the table of 30_encoding.md for
`NSTR = 5`: TICK, EDGE, CONFIG, SNAP, RESET (R55). -/
def opcodeTable : List (EventWord × EventWord) :=
  [(0x0000000000000000#64, 0xFFFFFFFFFFFFFFFF#64),
   (0x2000000000000000#64, 0xFFFFFFC000000000#64),
   (0x4000000000000000#64, 0xFFFFFFFFFFFF0000#64),
   (0x6000000000000000#64, 0xFFFFFFFFFFFFFFFF#64),
   (0x8000000000000000#64, 0xFFFFFFC0FFFFFFFF#64)]

/-- The event a table row's 64-bit word decodes to at the defaults of R5 (the table is for `NSTR = 5`).
Bits above `nbits` are 0; a word is exactly 64 bits (R46), so nothing longer decodes. -/
def decodeTableWord (nbits w : Nat) : Option Instr :=
  if nbits ≤ 64 then
    match decode Params.default (BitVec.ofNat 64 (w % 2 ^ nbits)) with
    | .event i => some i
    | _ => none
  else none

end Sys2Proof
end

