-- ==== Sys2Proof/Machine/Fetch.lean ====
section
/-! DEFINITION. Taking the next event: the words the agents send stand in `events`, oldest first
(00_scope.md R11 to R13). The block fetches nothing and has no program counter (10_state.md R16), so
this queue is the whole of its input (log 5). -/

namespace Sys2Proof.Machine

/-- The next event word and the state with it taken, or none when no agent has sent one. -/
def takeEvent (s : State) : Option (EventWord × State) :=
  match s.events with
  | [] => none
  | w :: rest => some (w, { s with events := rest })

/-- The refusal, if any, for a decoded word: what `step` answers when the word spells no event (R54, R55). -/
def onDecoded (d : Decoded) (run : Instr → Host.Outcome State Fault Refusal) :
    Host.Outcome State Fault Refusal :=
  match d with
  | .event i => run i
  | .reservedEvent => .refused .reservedEvent
  | .malformedEvent => .refused .malformedEvent

/-- Put a word in front of the waiting events: the next step takes exactly it. Bits above `nbits` are 0. -/
def pushEvent (s : State) (nbits w : Nat) : State :=
  { s with events := BitVec.ofNat 64 (w % 2 ^ nbits) :: s.events }

end Sys2Proof.Machine
end

