-- ==== Sys2Proof/Machine/Step.lean ====
section
/-! DEFINITION. One step of the machine: take the next event word, decode it, run the event
(00_scope.md R10 to R13; 60_exceptions.md R106, R107). -/

namespace Sys2Proof.Machine

/-- One step. A parameter set that breaks R6 is no machine and is refused before any event (R107). With
no event word waiting the block is idle and nothing changes (R117, R120; log 5). A word that spells no
event is refused before any check of the state (95_test_vectors.md L2.11). -/
def step (s : State) : Host.Outcome State Fault Refusal :=
  if s.params.Wf then
    match takeEvent s with
    | none => .next s
    | some (w, s') => onDecoded (decode s.params w) fun i => exec i s'
  else .refused .badParameters

/-- `s` with the event word `w` sent next, so that the next step runs exactly it. -/
def State.withFetchWord (s : State) (nbits w : Nat) : State := pushEvent s nbits w

end Sys2Proof.Machine
end

