-- ==== Sys2Proof/Machine/Trace.lean ====
section
/-! DEFINITION. The trace syntax, the textual form of an event (30_encoding.md R57, R58): a printer and a
reader of one line. Lines are lists of characters. What the grammar leaves open is in log 11. -/

namespace Sys2Proof

/-! The keywords of the grammar (R57, R58), as lists of characters: `0b`, `0x`, `tick`, `snap`, `edge in=`,
` t=`, `config v=`, `reset in=`, `tick*`. -/

def kwBits : List Char := ['0', 'b']
def kwHex : List Char := ['0', 'x']
def kwTick : List Char := ['t', 'i', 'c', 'k']
def kwSnap : List Char := ['s', 'n', 'a', 'p']
def kwEdge : List Char := ['e', 'd', 'g', 'e', ' ', 'i', 'n', '=']
def kwTime : List Char := [' ', 't', '=']
def kwConfig : List Char := ['c', 'o', 'n', 'f', 'i', 'g', ' ', 'v', '=']
def kwReset : List Char := ['r', 'e', 's', 'e', 't', ' ', 'i', 'n', '=']
def kwTicks : List Char := ['t', 'i', 'c', 'k', '*']

/-- The decimal digits of `n`, at most `fuel` of them, in front of `acc`. -/
def decimalFrom : Nat → Nat → List Char → List Char
  | 0, _, acc => acc
  | fuel + 1, n, acc =>
    if n < 10 then Nat.digitChar n :: acc
    else decimalFrom fuel (n / 10) (Nat.digitChar (n % 10) :: acc)

/-- A number of at most 32 bits in decimal: at most ten digits. -/
def decimal (n : Nat) : List Char := decimalFrom 10 n []

/-- The binary digits of lines `n-1 .. 0`, most significant first (R57). -/
def bitDigits (inp : Lines) : Nat → List Char
  | 0 => []
  | n + 1 => (if inp.getLsbD n then '1' else '0') :: bitDigits inp n

/-- `<bits>`: `0b` and exactly `NSTR+1` binary digits. -/
def printBits (p : Params) (inp : Lines) : List Char := kwBits ++ bitDigits inp (p.nstr + 1)

/-- The trace line of an event, `t=` in decimal (R57). -/
def printLine (p : Params) : Instr → List Char
  | .tick => kwTick
  | .edge inp now => kwEdge ++ printBits p inp ++ kwTime ++ decimal now.toNat
  | .config voltage => kwConfig ++ decimal voltage.toNat
  | .snap => kwSnap
  | .reset inp => kwReset ++ printBits p inp

/-- The trace line of a decoded word; a refused word has none (R57). -/
def printWord (p : Params) (w : EventWord) : Option (List Char) :=
  match decode p w with
  | .event i => some (printLine p i)
  | .reservedEvent => none
  | .malformedEvent => none

/-- What follows `pre`, if the line begins with it. -/
def afterPrefix : List Char → List Char → Option (List Char)
  | [], cs => some cs
  | _ :: _, [] => none
  | a :: pre, c :: cs => if a = c then afterPrefix pre cs else none

/-- The value of a decimal digit. -/
def decimalDigit (c : Char) : Option Nat :=
  if '0'.toNat ≤ c.toNat ∧ c.toNat ≤ '9'.toNat then some (c.toNat - '0'.toNat) else none

/-- The value of a hex digit, in either case. -/
def hexDigit (c : Char) : Option Nat :=
  if 'a'.toNat ≤ c.toNat ∧ c.toNat ≤ 'f'.toNat then some (c.toNat - 'a'.toNat + 10)
  else if 'A'.toNat ≤ c.toNat ∧ c.toNat ≤ 'F'.toNat then some (c.toNat - 'A'.toNat + 10)
  else decimalDigit c

/-- The number the digits spell after `acc`, every character being a digit. -/
def digitsFrom (base : Nat) (digit : Char → Option Nat) : Nat → List Char → Option Nat
  | acc, [] => some acc
  | acc, c :: cs =>
    match digit c with
    | some d => digitsFrom base digit (acc * base + d) cs
    | none => none

/-- A number: at least one digit, and digits only. -/
def number (base : Nat) (digit : Char → Option Nat) (cs : List Char) : Option Nat :=
  match cs with
  | [] => none
  | _ :: _ => digitsFrom base digit 0 cs

/-- A number below `bound`, else no number. -/
def below (bound : Nat) (n : Option Nat) : Option Nat :=
  match n with
  | some v => if v < bound then some v else none
  | none => none

/-- `<time>`: decimal, or `0x` and hex digits, below `2^TS_W` (R57). -/
def readTime (p : Params) (cs : List Char) : Option Stamp :=
  match afterPrefix kwHex cs with
  | some rest => (below (2 ^ p.tsW) (number 16 hexDigit rest)).map (BitVec.ofNat 32)
  | none => (below (2 ^ p.tsW) (number 10 decimalDigit cs)).map (BitVec.ofNat 32)

/-- `<volts>`: decimal, below `2^V_W` (R57) and within the 16 bits of the field (R51, log 8). -/
def readVolts (p : Params) (cs : List Char) : Option Setting :=
  (below (2 ^ min p.vW 16) (number 10 decimalDigit cs)).map (BitVec.ofNat 16)

/-- Exactly `n` binary digits after those read into `acc`, most significant first, and what follows them. -/
def readBitDigits : Nat → Nat → List Char → Option (Nat × List Char)
  | 0, acc, cs => some (acc, cs)
  | n + 1, acc, '0' :: cs => readBitDigits n (2 * acc) cs
  | n + 1, acc, '1' :: cs => readBitDigits n (2 * acc + 1) cs
  | _ + 1, _, _ => none

/-- `<bits>` and what follows it. -/
def readBits (p : Params) (cs : List Char) : Option (Lines × List Char) :=
  match afterPrefix kwBits cs with
  | some rest => (readBitDigits (p.nstr + 1) 0 rest).map fun b => (BitVec.ofNat 29 b.1, b.2)
  | none => none

/-- The arguments of `edge`. -/
def readEdge (p : Params) (cs : List Char) : Option (List Instr) :=
  match readBits p cs with
  | some (inp, rest) =>
    match afterPrefix kwTime rest with
    | some time => (readTime p time).map fun now => [.edge inp now]
    | none => none
  | none => none

/-- The argument of `reset`. -/
def readReset (p : Params) (cs : List Char) : Option (List Instr) :=
  match readBits p cs with
  | some (inp, []) => some [.reset inp]
  | _ => none

/-- The argument of the pseudo-event `tick*<n>`: `n >= 1` ticks (R58). -/
def readTicks (cs : List Char) : Option (List Instr) :=
  match number 10 decimalDigit cs with
  | some n => if 1 ≤ n then some (List.replicate n .tick) else none
  | none => none

/-- The events of a line without its comment. -/
def readEvents (p : Params) (cs : List Char) : Option (List Instr) :=
  if cs = kwTick then some [.tick]
  else if cs = kwSnap then some [.snap]
  else match afterPrefix kwTicks cs with
  | some rest => readTicks rest
  | none =>
    match afterPrefix kwEdge cs with
    | some rest => readEdge p rest
    | none =>
      match afterPrefix kwConfig cs with
      | some rest => (readVolts p rest).map fun v => [.config v]
      | none =>
        match afterPrefix kwReset cs with
        | some rest => readReset p rest
        | none => none

/-- The line before its comment, which begins at the first `;` (R57), without the blanks at its end. -/
def withoutComment (line : List Char) : List Char :=
  ((line.takeWhile fun c => c != ';').reverse.dropWhile fun c => c == ' ').reverse

/-- The trace reader: the events of one line, or none when the line does not match the grammar and is
refused (R57, R58). -/
def readLine (p : Params) (line : List Char) : Option (List Instr) := readEvents p (withoutComment line)

/-- The event words of a whole trace, one line after the other, if no line is refused. -/
def readTrace (p : Params) : List (List Char) → Option (List EventWord)
  | [] => some []
  | line :: rest =>
    match readLine p line, readTrace p rest with
    | some is, some ws => some (is.map encode ++ ws)
    | _, _ => none

end Sys2Proof
end

