-- ==== Sys2Proof/Safety.lean ====
section
/-! DEFINITION. The terms in which statements about the block are made: what can be observed
(00_scope.md R14), the machine invariant, runs of events, and the boot order (R121). -/

namespace Sys2Proof.Machine

/-- The next state of an outcome, if it is one. -/
def nextState : Result → Option State
  | .next s => some s
  | .fault _ => none
  | .refused _ => none

/-- The constraints of 00_scope.md R6 in the rule's own terms: what `Params.Wf` (the check `step` makes) is
to be compared with. -/
structure MeetsR6 (p : Params) : Prop where
  nstr : 1 ≤ p.nstr ∧ p.nstr ≤ 28
  pwmN : 1 ≤ p.pwmN ∧ p.pwmN ≤ 2 ^ 16
  levels : 1 ≤ p.l ∧ p.l < p.sentinel ∧ p.sentinel ≤ 2 ^ p.tW - 1
  brightnessFits : p.l ≤ 2 ^ p.bW - 1
  edges : p.bandEdgesUs.length = 7 ∧ p.bandEdgesUs.Pairwise (· < ·) ∧ ∀ e ∈ p.bandEdgesUs, e < p.winUs
  levelOfBand : p.levelOfBand.length = 8 ∧ p.levelOfBand.Pairwise (· ≥ ·) ∧
    ∀ v ∈ p.levelOfBand, 1 ≤ v ∧ v ≤ p.l
  windows : p.zcDebUs < 2 ^ p.tsW ∧ p.strDebUs < 2 ^ p.tsW ∧ p.winUs < 2 ^ p.tsW
  raw : ∀ v, v ≤ p.vfDv → p.maxdcRaw v ≤ 0
  tsW : p.tsW ≤ 32

/-- The model's own form of a parameter set's listing of `MAXDC_RAW`: rising settings, and no named value
that breaks R6 (log 2). -/
structure CanonicalRaw (p : Params) : Prop where
  rising : (p.maxdcRawAt.map Prod.fst).Pairwise (· < ·)
  named : ∀ e ∈ p.maxdcRawAt, e.1 ≤ p.vfDv → e.2 ≤ 0

/-- The bits that the format of a defined `op` fixes at 0, in the terms of R48 to R53: TICK and SNAP all of
[60:0], EDGE [60:33+NSTR] and [31:TS_W], CONFIG [60:16], RESET all but the lines. -/
def FixedZero (p : Params) (op : BitVec 3) (j : Nat) : Prop :=
  j ≤ 60 ∧
    ((op = 0b000#3 ∨ op = 0b011#3) ∨
     (op = 0b001#3 ∧ (33 + p.nstr ≤ j ∨ (p.tsW ≤ j ∧ j ≤ 31))) ∨
     (op = 0b010#3 ∧ 16 ≤ j) ∨
     (op = 0b100#3 ∧ (33 + p.nstr ≤ j ∨ j ≤ 31)))

/-- What a claim can observe of a state: the output latch and what the snapshots returned (R14). -/
def State.observed (s : State) : List Bool × List Snapshot := (s.out, s.snapshots)

/-- The bounds of 10_state.md R18 to R29 on a state after the first RESET: every element is a number of
its stated width and range, there are `NSTR` records and `NSTR` output bits, and the configuration
elements are together those of no CONFIG yet, or those of the CONFIG with the stored setting. -/
structure State.Live (s : State) : Prop where
  tick_lt : s.tick < 2 ^ s.params.tickW
  voltage_lt : s.voltage < 2 ^ s.params.vW
  strings_length : s.strings.length = s.params.nstr
  brightness_le : ∀ r ∈ s.strings, r.brightness ≤ s.params.l
  lastEdge_lt : ∀ r ∈ s.strings, r.lastEdgeTime < 2 ^ s.params.tsW
  zcTs_lt : s.zcTs < 2 ^ s.params.tsW
  prevIn_lt : s.prevIn.toNat < 2 ^ (s.params.nstr + 1)
  out_length : s.out.length = s.params.nstr
  unbuilt : s.tableBuilt = false →
    s.voltage = 0 ∧ s.maxdc = 0 ∧ s.table = [] ∧ s.cfgDegenerate = false
  built : s.tableBuilt = true →
    s.maxdc = clampMaxdc s.params (s.params.maxdcRaw s.voltage) ∧
    s.table = buildTable s.params s.maxdc ∧
    s.cfgDegenerate = degenerate (s.params.maxdcRaw s.voltage)

/-- The machine invariant: the parameters meet R6, and once a RESET has come (R17) every element is in
its bounds. -/
structure State.Inv (s : State) : Prop where
  params_wf : s.params.Wf
  live : s.init = true → s.Live

/-- Line `j` of the sample has another level than at the previous sample (43_edge_detector.md R82). -/
abbrev State.LineChanged (s : State) (inp : Lines) (j : Nat) : Prop :=
  inp.getLsbD j ≠ s.prevIn.getLsbD j

/-- The EDGE holds a zero-crossing edge that is accepted: a change of line 0 to the zero-crossing level
(R84), strictly later than the debounce window after the last accepted one (R85). -/
abbrev State.ZcTaken (s : State) (inp : Lines) (now : Stamp) : Prop :=
  s.LineChanged inp 0 ∧ inp.getLsbD 0 = s.params.zcRising ∧
    s.params.zcDebUs < elapsed s.params now.toNat s.zcTs

/-- The EDGE holds an edge of string `k`, whose record is `r`, that is accepted: a change of its line in
either direction (R90), at least the re-trigger spacing after the last accepted one (R91). -/
abbrev State.EdgeTaken (s : State) (inp : Lines) (now : Stamp) (k : Nat) (r : StringRec) : Prop :=
  s.LineChanged inp (k + 1) ∧ s.params.strDebUs ≤ elapsed s.params now.toNat r.lastEdgeTime

/-- The event is neither a RESET nor an EDGE with string `k`'s line at another level than `b`. -/
def keepsLine (k : Nat) (b : Bool) : Instr → Bool
  | .tick => true
  | .edge inp _ => inp.getLsbD (k + 1) == b
  | .config _ => true
  | .snap => true
  | .reset _ => false

/-- The event is neither a RESET nor an EDGE whose timestamp fails the test. -/
def stampsSatisfy (ok : Nat → Bool) : Instr → Bool
  | .tick => true
  | .edge _ now => ok now.toNat
  | .config _ => true
  | .snap => true
  | .reset _ => false

/-- The event is not an EDGE. -/
def notEdge : Instr → Bool
  | .tick => true
  | .edge _ _ => false
  | .config _ => true
  | .snap => true
  | .reset _ => true

/-- The state with the model's own output field emptied: every element of the block, the parameters and
the coming events. -/
def State.block (s : State) : State := { s with snapshots := [] }

/-- An outcome seen without the model's own output field. -/
def blockOf : Result → Result
  | .next s => .next s.block
  | .fault r => .fault r
  | .refused r => .refused r

/-- Run events one after the other, stopping at the first fault or refusal. -/
def execAll : List Instr → State → Result
  | [], s => .next s
  | i :: is, s =>
    match exec i s with
    | .next s' => execAll is s'
    | .fault r => .fault r
    | .refused r => .refused r

/-- `n` TICKs in a row. -/
def ticks (n : Nat) (s : State) : Result := execAll (List.replicate n .tick) s

/-- String `k`'s line is driven in the state an outcome leads to. -/
def litAfter (k : Nat) (r : Result) : Bool :=
  match nextState r with
  | some s => s.out[k]? == some true
  | none => false

/-- How many of the next `n` TICKs leave string `k`'s line driven. -/
def litCount (k n : Nat) (s : State) : Nat :=
  (List.range n).countP fun j => litAfter k (ticks (j + 1) s)

/-- The boot order of R121, from a state whose `init` and `table_built` are given: no event but RESET
before the first RESET, no TICK between a RESET and the first CONFIG after it. -/
def bootOrder : Bool → Bool → List Instr → Bool
  | _, _, [] => true
  | init, built, .tick :: is => init && built && bootOrder init built is
  | init, built, .edge _ _ :: is => init && bootOrder init built is
  | init, _, .config _ :: is => init && bootOrder init true is
  | init, built, .snap :: is => init && bootOrder init built is
  | _, _, .reset _ :: is => bootOrder true false is

/-- The event is not a SNAP. -/
def notSnap : Instr → Bool
  | .tick => true
  | .edge _ _ => true
  | .config _ => true
  | .snap => false
  | .reset _ => true

end Sys2Proof.Machine
end

