-- ==== Sys2Proof/Certificates/Slice0/Obligations.lean ====
section
/-! DEFINITION. What the block does, stated from the numbered rules of spec/. A statement about a next
state has as conclusion that the event answers one, for every state and operands that meet the named
hypotheses. -/

open Sys2Proof Sys2Proof.Machine

/-! ## TICK -/

/-- R62, R64: a TICK compares every string's brightness with the one table entry of its position, in one
step. It completes in every state of the invariant after a RESET and a CONFIG; it writes `tick` and `out`
and nothing else. -/
def Obligations.TickDrivesEveryString : Prop :=
  ∀ s : State, s.Inv → s.init = true → s.tableBuilt = true →
    ∃ thr t, s.table[(s.tick + 1) % 2 ^ s.params.tickW % s.params.pwmN]? = some thr ∧
      exec .tick s = .next t ∧
      t.tick = (s.tick + 1) % 2 ^ s.params.tickW ∧
      t.out.length = s.params.nstr ∧
      (∀ (k : Nat) (r : StringRec), s.strings[k]? = some r → t.out[k]? = some (decide (thr ≤ r.brightness))) ∧
      t = { s with tick := t.tick, out := t.out }

/-- R60, R61: `n` TICKs in a row complete, add `n` to the counter modulo `2^TICK_W`, and the outputs after
them are those of the position taken from the counter after its increment. -/
def Obligations.TicksCountAndPlaceOutputs : Prop :=
  ∀ (s : State) (n : Nat), s.Inv → s.init = true → s.tableBuilt = true → 1 ≤ n →
    ∃ thr t, s.table[(s.tick + n) % 2 ^ s.params.tickW % s.params.pwmN]? = some thr ∧
      ticks n s = .next t ∧
      t.tick = (s.tick + n) % 2 ^ s.params.tickW ∧
      (∀ (k : Nat) (r : StringRec), s.strings[k]? = some r → t.out[k]? = some (decide (thr ≤ r.brightness))) ∧
      t = { s with tick := t.tick, out := t.out }

/-- R70 (41_output_driver.md, marked there as derived): at a position at or above `maxdc` the entry is the
sentinel, above every level, so every string is off; every entry is at least 1, so a string of brightness 0
is off at every position. -/
def Obligations.ForcedOff : Prop :=
  ∀ s : State, s.Inv → s.init = true → s.tableBuilt = true →
    ∃ thr t, exec .tick s = .next t ∧ s.table[t.tick % s.params.pwmN]? = some thr ∧ 1 ≤ thr ∧
      (s.maxdc ≤ t.tick % s.params.pwmN →
        thr = s.params.sentinel ∧ s.params.l < thr ∧ ∀ b ∈ t.out, b = false) ∧
      (∀ (k : Nat) (r : StringRec), s.strings[k]? = some r → r.brightness = 0 → t.out[k]? = some false)

/-- R66: the output of string `k` after a TICK is a function of its brightness and of the table entry
alone: two states that agree on these (and on nothing else) give the same output. -/
def Obligations.OutputLanesAreIndependent : Prop :=
  ∀ (s s' t t' : State) (k : Nat) (r r' : StringRec),
    exec .tick s = .next t → exec .tick s' = .next t' →
    s.strings[k]? = some r → s'.strings[k]? = some r' → r.brightness = r'.brightness →
    s.table[t.tick % s.params.pwmN]? = s'.table[t'.tick % s'.params.pwmN]? →
    t.out[k]? = t'.out[k]? ∧ (t.out[k]?).isSome = true

/-- R69 in its full form (41_output_driver.md, marked there as derived): with the table of the stored setting and the brightness unchanged, of the next
`PWM_N` TICKs exactly `min(maxdc, ceil(b*maxdc/L))` leave string `k` lit. `PWM_N` divides `2^TICK_W`, so
that no wrap of the counter cuts the period (R7, R127). -/
def Obligations.DutyPerPeriod : Prop :=
  ∀ (s : State) (k : Nat) (r : StringRec),
    s.Inv → s.init = true → s.tableBuilt = true → s.params.pwmN ∣ 2 ^ s.params.tickW →
    s.strings[k]? = some r →
    litCount k s.params.pwmN s =
      min s.maxdc ((r.brightness * s.maxdc + s.params.l - 1) / s.params.l)

/-- R69 (41_output_driver.md, marked there as derived): the lit positions are one contiguous run from position 0, `0 .. ceil(b*m/L)-1`. -/
def Obligations.LitPositionsAreOneRunFromZero : Prop :=
  ∀ (p : Params) (m b i thr : Nat), p.Wf → 1 ≤ m → m ≤ p.pwmN → b ≤ p.l →
    (buildTable p m)[i]? = some thr →
    (thr ≤ b ↔ i < (b * m + p.l - 1) / p.l)

/-- R127 (70_reset_and_hazards.md, marked there as derived), with R61: the TICK that wraps the counter takes position 0 after position `(2^TICK_W - 1) mod PWM_N`;
when `PWM_N` divides `2^TICK_W` every TICK moves to the next position modulo `PWM_N`. -/
def Obligations.PositionAtTheCounterWrap : Prop :=
  ∀ s : State, s.Inv → s.init = true → s.tableBuilt = true →
    ∃ t, exec .tick s = .next t ∧
      (s.tick = 2 ^ s.params.tickW - 1 → t.tick = 0 ∧ cyclePos s.params t.tick = 0 ∧
        cyclePos s.params s.tick = (2 ^ s.params.tickW - 1) % s.params.pwmN) ∧
      (s.tick ≠ 2 ^ s.params.tickW - 1 → t.tick = s.tick + 1) ∧
      (s.params.pwmN ∣ 2 ^ s.params.tickW →
        cyclePos s.params t.tick = (cyclePos s.params s.tick + 1) % s.params.pwmN)

/-- R68 and the property of 95_test_vectors.md L1.4: with brightness and table unchanged the same
position gives the same outputs; the position recurs after `PWM_N` TICKs. -/
def Obligations.OutputsRecurEveryPeriod : Prop :=
  ∀ (s : State) (n : Nat), s.Inv → s.init = true → s.tableBuilt = true → 1 ≤ n →
    s.params.pwmN ∣ 2 ^ s.params.tickW →
    ∃ t u, ticks n s = .next t ∧ ticks (n + s.params.pwmN) s = .next u ∧ u.out = t.out

/-! ## CONFIG -/

/-- R73 to R75 (and R71): CONFIG completes in every state after a RESET at well-formed parameters, stores the
setting, clamps the step count to `1 .. PWM_N`, flags the degenerate case, and builds the ramp and the
sentinels. `MAXDC_RAW` is the open parameter: the statement holds whatever it is. -/
def Obligations.ConfigClampsAndBuilds : Prop :=
  ∀ (s : State) (v : Setting), s.params.Wf → s.init = true →
    ∃ t, exec (.config v) s = .next t ∧
      t.voltage = v.toNat ∧ t.tableBuilt = true ∧
      (s.params.maxdcRaw v.toNat < 1 → t.maxdc = 1 ∧ t.cfgDegenerate = true) ∧
      ((s.params.pwmN : Int) < s.params.maxdcRaw v.toNat →
        t.maxdc = s.params.pwmN ∧ t.cfgDegenerate = false) ∧
      (1 ≤ s.params.maxdcRaw v.toNat → s.params.maxdcRaw v.toNat ≤ (s.params.pwmN : Int) →
        (t.maxdc : Int) = s.params.maxdcRaw v.toNat ∧ t.cfgDegenerate = false) ∧
      (1 ≤ t.maxdc ∧ t.maxdc ≤ s.params.pwmN) ∧
      t.table.length = s.params.pwmN ∧
      (∀ i : Nat, i < t.maxdc → t.table[i]? = some (i * s.params.l / t.maxdc + 1) ∧
        i * s.params.l / t.maxdc + 1 ≤ s.params.l) ∧
      (∀ i : Nat, t.maxdc ≤ i → i < s.params.pwmN → t.table[i]? = some s.params.sentinel)

/-- R78: CONFIG writes nothing but its own five elements. -/
def Obligations.ConfigWritesOnlyItsOwn : Prop :=
  ∀ (s : State) (v : Setting), s.init = true →
    ∃ t, exec (.config v) s = .next t ∧
      t.tick = s.tick ∧ t.out = s.out ∧ t.strings = s.strings ∧ t.zcTs = s.zcTs ∧
      t.prevIn = s.prevIn ∧ t.init = s.init ∧ t.params = s.params ∧ t.events = s.events ∧
      t.snapshots = s.snapshots

/-- R79 (42_table_builder.md, marked there as derived): what CONFIG leaves depends on the setting and the parameters only. -/
def Obligations.ConfigForgetsEarlierState : Prop :=
  ∀ (s s' t t' : State) (v : Setting), s.params = s'.params →
    exec (.config v) s = .next t → exec (.config v) s' = .next t' →
    t.voltage = t'.voltage ∧ t.maxdc = t'.maxdc ∧ t.cfgDegenerate = t'.cfgDegenerate ∧
      t.table = t'.table ∧ t.tableBuilt = t'.tableBuilt

/-- R76 (42_table_builder.md, marked there as derived), with R74: the table of every setting is non-decreasing, starts at 1, holds only levels `1 .. L`
below `maxdc` and the sentinel, above every level, from there on; and every value in it stands in one
contiguous run. -/
def Obligations.TableIsMonotone : Prop :=
  ∀ (s : State) (v : Setting), s.params.Wf → s.init = true →
    ∃ t, exec (.config v) s = .next t ∧ t.table[0]? = some 1 ∧
      (∀ i j x y : Nat, i ≤ j → t.table[i]? = some x → t.table[j]? = some y → x ≤ y) ∧
      (∀ i x : Nat, i < t.maxdc → t.table[i]? = some x → 1 ≤ x ∧ x ≤ s.params.l ∧ x < s.params.sentinel) ∧
      (∀ i x : Nat, t.maxdc ≤ i → t.table[i]? = some x → x = s.params.sentinel) ∧
      (∀ i j n x y : Nat, i ≤ j → j ≤ n → t.table[i]? = some x → t.table[n]? = some x →
        t.table[j]? = some y → y = x)

/-- R80 (42_table_builder.md, marked there as derived), with R6: a setting at or below the forward drop is degenerate; the table is then
`[1, SENTINEL, SENTINEL, ...]`, and a TICK lights exactly the strings of brightness at least 1, at
position 0 only. -/
def Obligations.DegenerateOutput : Prop :=
  ∀ (s : State) (v : Setting), s.Inv → s.init = true → v.toNat ≤ s.params.vfDv →
    ∃ t u, exec (.config v) s = .next t ∧ t.cfgDegenerate = true ∧ t.maxdc = 1 ∧
      t.table = 1 :: List.replicate (s.params.pwmN - 1) s.params.sentinel ∧
      exec .tick t = .next u ∧
      (∀ (k : Nat) (r : StringRec), s.strings[k]? = some r →
        u.out[k]? = some (decide (1 ≤ r.brightness ∧ u.tick % s.params.pwmN = 0)))

/-! ## EDGE -/

/-- R97: after a RESET no sample, timestamp or sequence of EDGEs makes the edge detector fault, hang or
stop accepting later edges, and an EDGE with no accepted zero-crossing and no accepted in-window edge of a
string leaves that string's brightness. -/
def Obligations.EdgeDetectorHasNoFatalPath : Prop :=
  ∀ (s : State) (es : List (Lines × Stamp)), s.init = true →
    ∃ t, execAll (es.map fun e => .edge e.1 e.2) s = .next t ∧ t.init = true ∧
      ∀ inp now, ∃ u, exec (.edge inp now) t = .next u ∧
        ∀ (k : Nat) (r : StringRec), t.strings[k]? = some r → ¬ t.ZcTaken inp now →
          ¬ (t.EdgeTaken inp now k r ∧ elapsed t.params now.toNat t.zcTs < t.params.winUs) →
          ∃ r', u.strings[k]? = some r' ∧ r'.brightness = r.brightness ∧ r'.seen = r.seen

/-- R81, R82: EDGE completes after a RESET, always records the sample, and writes nothing but `prev_in`,
`zc_ts` and the records. -/
def Obligations.EdgeRecordsSampleAndFrame : Prop :=
  ∀ (s : State) (inp : Lines) (now : Stamp), s.init = true →
    ∃ t, exec (.edge inp now) s = .next t ∧ t.prevIn = inp ∧
      t.strings.length = s.strings.length ∧
      t = { s with prevIn := inp, zcTs := t.zcTs, strings := t.strings }

/-- R86, R88, R89, R96: at an accepted zero-crossing the phase reference becomes `now`; a string whose own
edge is accepted in the same EDGE is measured at delay 0 after the flags were cleared; every other string
is resolved to `L` or 0 by its level in this sample if it was unseen, keeps its brightness if it was
seen, and has its flag cleared. -/
def Obligations.EdgeAtZeroCrossing : Prop :=
  ∀ (s : State) (inp : Lines) (now : Stamp), s.params.Wf → s.init = true → s.ZcTaken inp now →
    ∃ t, exec (.edge inp now) s = .next t ∧ t.zcTs = now.toNat ∧
      ∀ (k : Nat) (r : StringRec), s.strings[k]? = some r →
        (s.EdgeTaken inp now k r → t.strings[k]? = some
          { brightness := level s.params 0, lastEdgeTime := now.toNat, seen := true }) ∧
        (¬ s.EdgeTaken inp now k r → t.strings[k]? = some
          { brightness := if r.seen = true then r.brightness
              else if inp.getLsbD (k + 1) = true then s.params.l else 0,
            lastEdgeTime := r.lastEdgeTime, seen := false })

/-- R85, R87, R90 to R92, R94, R95: an EDGE without an accepted zero-crossing leaves the phase reference;
a string's accepted edge inside the window writes level, time and flag; outside the window it records the
time only, and that only when `OOW_RECORDS_EDGE`; a string without an accepted edge keeps its record. -/
def Obligations.EdgeAwayFromZeroCrossing : Prop :=
  ∀ (s : State) (inp : Lines) (now : Stamp), s.init = true → ¬ s.ZcTaken inp now →
    ∃ t, exec (.edge inp now) s = .next t ∧ t.zcTs = s.zcTs ∧
      ∀ (k : Nat) (r : StringRec), s.strings[k]? = some r →
        (¬ s.EdgeTaken inp now k r → t.strings[k]? = some r) ∧
        (s.EdgeTaken inp now k r → elapsed s.params now.toNat s.zcTs < s.params.winUs →
          t.strings[k]? = some
            { brightness := level s.params (elapsed s.params now.toNat s.zcTs),
              lastEdgeTime := now.toNat, seen := true }) ∧
        (s.EdgeTaken inp now k r → s.params.winUs ≤ elapsed s.params now.toNat s.zcTs →
          t.strings[k]? = some
            { r with lastEdgeTime :=
                if s.params.oowRecordsEdge = true then now.toNat else r.lastEdgeTime })

/-- R96: strings do not interact. What an EDGE does to string `k` depends on the zero-crossing line, on
line `k+1`, on `zc_ts` and on the record of string `k` alone. -/
def Obligations.EdgeLanesAreIndependent : Prop :=
  ∀ (s s' t t' : State) (inp inp' : Lines) (now : Stamp) (k : Nat),
    exec (.edge inp now) s = .next t → exec (.edge inp' now) s' = .next t' →
    s.params = s'.params → s.zcTs = s'.zcTs → s.strings[k]? = s'.strings[k]? →
    inp.getLsbD 0 = inp'.getLsbD 0 → s.prevIn.getLsbD 0 = s'.prevIn.getLsbD 0 →
    inp.getLsbD (k + 1) = inp'.getLsbD (k + 1) →
    s.prevIn.getLsbD (k + 1) = s'.prevIn.getLsbD (k + 1) →
    t.strings[k]? = t'.strings[k]? ∧ t.zcTs = t'.zcTs

/-- R93: the level of a delay is that of the band counted by the boundaries it has reached, it is a
non-increasing function of the delay within `1 .. L`, saturating at both ends; with the defaults it is
`8 - min(floor(dt/1000), 7)`. -/
def Obligations.LevelMap : Prop :=
  (∀ (p : Params) (dt : Nat), p.Wf →
    p.levelOfBand[(p.bandEdgesUs.filter fun e => decide (e ≤ dt)).length]? = some (level p dt) ∧
    1 ≤ level p dt ∧ level p dt ≤ p.l ∧
    (∀ dt', dt ≤ dt' → level p dt' ≤ level p dt) ∧
    ((∀ e ∈ p.bandEdgesUs, dt < e) → p.levelOfBand[0]? = some (level p dt)) ∧
    ((∀ e ∈ p.bandEdgesUs, e ≤ dt) → p.levelOfBand[7]? = some (level p dt))) ∧
  ∀ dt, level Params.default dt = 8 - min (dt / 1000) 7

/-- R9: the elapsed time recovers a true distance below `2^TS_W` through any wrap of the timestamp, and is
always a value below `2^TS_W`. -/
def Obligations.ElapsedRecoversDistance : Prop :=
  ∀ (p : Params) (past d : Nat), past < 2 ^ p.tsW →
    (d < 2 ^ p.tsW → elapsed p ((past + d) % 2 ^ p.tsW) past = d) ∧
    ∀ now, elapsed p now past < 2 ^ p.tsW

/-- R99 (1) (43_edge_detector.md, marked there as derived): a string unseen now, whose line keeps one level through any events without a RESET, is
resolved by the next accepted zero-crossing to `L` when that level is high and to 0 when it is low. -/
def Obligations.HeldLineResolvesToBoundary : Prop :=
  ∀ (s t : State) (es : List Instr) (k : Nat) (r : StringRec) (inp : Lines) (now : Stamp),
    s.init = true → s.strings[k]? = some r → r.seen = false →
    (∀ e ∈ es, keepsLine k (s.prevIn.getLsbD (k + 1)) e = true) → execAll es s = .next t →
    inp.getLsbD (k + 1) = s.prevIn.getLsbD (k + 1) → t.ZcTaken inp now →
    ∃ u r', exec (.edge inp now) t = .next u ∧ u.strings[k]? = some r' ∧
      r'.brightness = (if s.prevIn.getLsbD (k + 1) = true then s.params.l else 0) ∧ r'.seen = false

/-- R99 (2) (43_edge_detector.md, marked there as derived), with R85: as long as no timestamp lies more than `ZC_DEB_US` after the last accepted
zero-crossing, no further one is accepted, whatever else comes (but RESET). -/
def Obligations.ZeroCrossingBouncesAreIgnored : Prop :=
  ∀ (s : State) (es : List Instr), s.init = true →
    (∀ e ∈ es, stampsSatisfy (fun now => decide (elapsed s.params now s.zcTs ≤ s.params.zcDebUs)) e
      = true) →
    ∀ t, execAll es s = .next t → t.zcTs = s.zcTs

/-- R99 (2) (43_edge_detector.md, marked there as derived), with R91: as long as every timestamp lies less than `STR_DEB_US` after string `k`'s last recorded
edge, no further edge of it is accepted: its time of last edge stays, and its flag is never set. -/
def Obligations.StringBouncesAreIgnored : Prop :=
  ∀ (s : State) (es : List Instr) (k : Nat) (r : StringRec), s.init = true →
    s.strings[k]? = some r →
    (∀ e ∈ es, stampsSatisfy
      (fun now => decide (elapsed s.params now r.lastEdgeTime < s.params.strDebUs)) e = true) →
    ∀ t, execAll es s = .next t →
      ∃ r', t.strings[k]? = some r' ∧ r'.lastEdgeTime = r.lastEdgeTime ∧
        (r.seen = false → r'.seen = false)

/-- R132 (70_reset_and_hazards.md, marked there as derived): right after a RESET a zero-crossing edge with `now <= ZC_DEB_US` and a string edge with
`now < STR_DEB_US` are rejected: the EDGE records its sample and nothing else. -/
def Obligations.StartUpWindowRejects : Prop :=
  ∀ (s : State) (inp0 inp : Lines) (now : Stamp), s.params.Wf → stampFits s.params now = true →
    now.toNat ≤ s.params.zcDebUs → now.toNat < s.params.strDebUs →
    ∃ t, exec (.reset inp0) s = .next t ∧ exec (.edge inp now) t = .next { t with prevIn := inp }

/-! ## SNAP -/

/-- R100: after a RESET (and before any CONFIG as well) SNAP returns `(zc_ts, brightness[], cfg_degenerate)`
of the one state it is taken in, and writes no element of the block. -/
def Obligations.SnapReturnsTheTuple : Prop :=
  ∀ s : State, s.init = true →
    ∃ t x, exec .snap s = .next t ∧ t.snapshots = s.snapshots ++ [x] ∧
      x.zcTs = s.zcTs ∧ x.cfgDegenerate = s.cfgDegenerate ∧
      x.brightness.length = s.strings.length ∧
      (∀ (k : Nat) (r : StringRec), s.strings[k]? = some r → x.brightness[k]? = some r.brightness) ∧
      t.block = s.block

/-- R102, for runs that start after a RESET (before it a SNAP faults, R122): removing every SNAP from a run
changes nothing but what the diagnostic reader receives: the same
end, and the same block in it, its outputs among the rest. -/
def Obligations.SnapsCanBeRemoved : Prop :=
  ∀ (s : State) (is : List Instr), s.init = true →
    blockOf (execAll is s) = blockOf (execAll (is.filter notSnap) s)

/-! ## RESET -/

/-- R119: RESET completes in every state, before the first RESET as well, and gives every element of the
block its reset value, `prev_in` the levels the event carries. The parameters, the coming events and
what the diagnostic reader has received stand. -/
def Obligations.ResetGivesEveryElement : Prop :=
  ∀ (s : State) (inp : Lines),
    ∃ t, exec (.reset inp) s = .next t ∧
      t.init = true ∧ t.tick = 0 ∧ t.voltage = 0 ∧ t.maxdc = 0 ∧ t.tableBuilt = false ∧
      t.table = [] ∧ t.cfgDegenerate = false ∧ t.zcTs = 0 ∧ t.prevIn = inp ∧
      t.strings.length = s.params.nstr ∧ t.out.length = s.params.nstr ∧
      (∀ k, k < s.params.nstr →
        t.strings[k]? = some { brightness := 0, lastEdgeTime := 0, seen := false } ∧
        t.out[k]? = some false) ∧
      t.params = s.params ∧ t.events = s.events ∧ t.snapshots = s.snapshots

/-- R119, R123: a RESET discards the table, so the next TICK faults. -/
def Obligations.ResetDiscardsTheTable : Prop :=
  ∀ (s : State) (inp : Lines) (is : List Instr),
    execAll (.reset inp :: .tick :: is) s = .fault .tableUnbuilt

/-- R120: every output low and every brightness 0, as RESET leaves them, stay so through any run without an
EDGE that completes. -/
def Obligations.OutputsStayLowUntilAnEdge : Prop :=
  ∀ (s t : State) (is : List Instr), s.Inv →
    (∀ i ∈ is, i.wellFormed s.params = true ∧ notEdge i = true) →
    (∀ r ∈ s.strings, r.brightness = 0) → (∀ b ∈ s.out, b = false) →
    execAll is s = .next t →
    (∀ r ∈ t.strings, r.brightness = 0) ∧ (∀ b ∈ t.out, b = false)

/-! ## Faults, refusals, boot order -/

/-- R122: before the first RESET, TICK, EDGE, CONFIG and SNAP fault with `NotReset`. -/
def Obligations.NotResetFaults : Prop :=
  ∀ s : State, s.init = false →
    exec .tick s = .fault .notReset ∧
    (∀ inp now, exec (.edge inp now) s = .fault .notReset) ∧
    (∀ v, exec (.config v) s = .fault .notReset) ∧
    exec .snap s = .fault .notReset

/-- R123: a TICK after a RESET and before a CONFIG faults with `TableUnbuilt`. -/
def Obligations.TickFaultsWhileTableUnbuilt : Prop :=
  ∀ s : State, s.init = true → s.tableBuilt = false → exec .tick s = .fault .tableUnbuilt

/-- R121: from every state of the invariant, a run of spelled events completes exactly when it keeps the
boot order; when it does not, it ends in one of the two model faults, never in a refusal. -/
def Obligations.RunCompletesIffBootOrder : Prop :=
  ∀ (s : State) (is : List Instr), s.Inv → (∀ i ∈ is, i.wellFormed s.params = true) →
    (bootOrder s.init s.tableBuilt is = true → ∃ t, execAll is s = .next t ∧ t.Inv) ∧
    (bootOrder s.init s.tableBuilt is = false →
      execAll is s = .fault .notReset ∨ execAll is s = .fault .tableUnbuilt)

/-- R54: a word with `op` 101, 110 or 111 is refused with `ReservedEvent`, whatever its other bits and
whatever the state (before the first RESET as well). -/
def Obligations.ReservedWordsAreRefused : Prop :=
  ∀ (s : State) (w : EventWord) (rest : List EventWord), s.params.Wf → s.events = w :: rest →
    5 ≤ (w.extractLsb' 61 3).toNat → step s = .refused .reservedEvent

/-- A word of a defined `op` that no event of this parameter set is spelled by is refused with
`MalformedEvent`; and for the defaults exactly the words that match a row of the opcode table decode. Where
`V_W < 16` this refuses CONFIG words with a 1 in [15:V_W], which R51 and R55 do not say: the model's choice
(log 8, DEDUCED). At `V_W = 16` it is R55, stated in the rule's own terms in the next statement. -/
def Obligations.MalformedWordsAreRefused : Prop :=
  (∀ (s : State) (w : EventWord) (rest : List EventWord), s.params.Wf → s.events = w :: rest →
    (w.extractLsb' 61 3).toNat < 5 →
    (∀ i : Instr, i.wellFormed s.params = true → encode i ≠ w) →
    step s = .refused .malformedEvent) ∧
  ∀ w : EventWord, (∃ i, decode Params.default w = .event i) ↔
    ∃ row ∈ opcodeTable, w &&& row.2 = row.1

/-- R55 at the setting width of R51, `V_W = 16`, every other parameter free: a step on a word of a defined
`op` is refused with `MalformedEvent` exactly when the word has a 1 in a bit its format fixes at 0; every
word decodes to one event or is refused; and for `NSTR = 5` (the other parameters at their defaults) exactly
the words that match a row of the opcode table decode. -/
def Obligations.WordsWithAFixedZeroSetAreRefused : Prop :=
  (∀ (s : State) (w : EventWord) (rest : List EventWord), s.params.Wf → s.params.vW = 16 →
    s.events = w :: rest →
    ((w.extractLsb' 61 3).toNat < 5 →
      (step s = .refused .malformedEvent ↔
        ∃ j, FixedZero s.params (w.extractLsb' 61 3) j ∧ w.getLsbD j = true)) ∧
    ((∃ i, decode s.params w = .event i ∧ step s = exec i { s with events := rest }) ∨
      step s = .refused .reservedEvent ∨ step s = .refused .malformedEvent)) ∧
  ∀ w : EventWord, (∃ i, decode Params.default w = .event i) ↔
    ∃ row ∈ opcodeTable, w &&& row.2 = row.1

/-- A step is refused with `BadParameters`, whatever is sent, exactly when its parameter set breaks a
constraint of R6 (`MeetsR6`, in the rule's own terms), has `B_W > ATOMIC_W` (R36, R124; the model's choice,
log 14), or lists `MAXDC_RAW` out of the model's form (log 2). R107 makes the check once, at construction;
that every step makes it is the model's choice too (log 16). -/
def Obligations.BrokenParametersAreRefused : Prop :=
  ∀ s : State,
    step s = .refused .badParameters ↔
      ¬ MeetsR6 s.params ∨ s.params.atomicW < s.params.bW ∨ ¬ CanonicalRaw s.params

/-! ## Encoding -/

/-- R48 to R53: decoding the word of an event gives the event back, for every event that can be spelled
and every operand value, at every well-formed parameter set. -/
def Obligations.DecodeOfEncode : Prop :=
  ∀ (p : Params) (i : Instr), p.Wf → i.wellFormed p = true → decode p (encode i) = .event i

/-- What decodes is well-formed and is spelled by exactly the word it came from (R55, R56). That the setting
of a decoded CONFIG is below `2^V_W` at `V_W < 16` is not in these rules: it is the model's choice (log 8,
DEDUCED). -/
def Obligations.EncodeOfDecode : Prop :=
  ∀ (p : Params) (w : EventWord) (i : Instr), p.Wf → decode p w = .event i →
    i.wellFormed p = true ∧ encode i = w

/-- The worked encodings of 30_encoding.md. -/
def Obligations.WorkedEncodingsDecode : Prop :=
  decode Params.default 0x0000000000000000#64 = .event .tick ∧
  decode Params.default 0x2000000100001388#64 = .event (.edge 0b000001#29 5000#32) ∧
  decode Params.default 0x2000000400001D4C#64 = .event (.edge 0b000100#29 7500#32) ∧
  decode Params.default 0x400000000000003F#64 = .event (.config 63#16) ∧
  decode Params.default 0x6000000000000000#64 = .event .snap ∧
  decode Params.default 0x8000000800000000#64 = .event (.reset 0b001000#29) ∧
  decode Params.default 0xA000000000000000#64 = .reservedEvent ∧
  decode Params.default 0x0000000000000001#64 = .malformedEvent

/-- R57: the trace reader reads the printed line of an event as that event, with or without a comment
behind it. -/
def Obligations.TraceLineRoundTrip : Prop :=
  ∀ (p : Params) (i : Instr) (comment : List Char), p.Wf → i.wellFormed p = true →
    readLine p (printLine p i) = some [i] ∧
    readLine p (printLine p i ++ ' ' :: ';' :: comment) = some [i]

/-- R58: `tick*<n>` expands to `n` ticks, for every `n >= 1` (of at most ten digits), and `tick*0` is
refused. -/
def Obligations.TickPseudoEventExpands : Prop :=
  (∀ (p : Params) (n : Nat), 1 ≤ n → n < 10 ^ 10 →
    readLine p (kwTicks ++ decimal n) = some (List.replicate n .tick)) ∧
  ∀ p : Params, readLine p (kwTicks ++ ['0']) = none

/-! ## The step and the whole machine -/

/-- A step runs the decoded event: it takes the first waiting word and runs the event the word spells, at
the state with the word taken. With no word waiting it changes nothing (log 5, the model's choice). -/
def Obligations.StepRunsTheDecodedEvent : Prop :=
  ∀ s : State, s.params.Wf →
    (∀ w rest i, s.events = w :: rest → decode s.params w = .event i →
      step s = exec i { s with events := rest }) ∧
    (s.events = [] → step s = .next s)

/-- A step that completes with a word waiting has taken exactly that word: no event adds, drops or reorders
the words after it (R16, R39), or changes the parameters. With no word waiting the step takes no event and
changes nothing. The fields it speaks of are the model's own: the waiting words and the idle step by log 5,
the parameters by log 1. -/
def Obligations.StepTakesExactlyOneEvent : Prop :=
  ∀ s t : State, step s = .next t →
    (∀ w rest, s.events = w :: rest → t.events = rest ∧ t.params = s.params) ∧
    (s.events = [] → t = s)

/-- R114, R18 to R29: every element is written by its owner alone. -/
def Obligations.OnlyTheOwnerWrites : Prop :=
  ∀ (i : Instr) (s t : State), exec i s = .next t → (∀ inp, i ≠ .reset inp) →
    t.init = s.init ∧
    (i ≠ .tick → t.tick = s.tick ∧ t.out = s.out) ∧
    ((∀ v, i ≠ .config v) → t.voltage = s.voltage ∧ t.maxdc = s.maxdc ∧ t.table = s.table ∧
      t.tableBuilt = s.tableBuilt ∧ t.cfgDegenerate = s.cfgDegenerate) ∧
    ((∀ inp now, i ≠ .edge inp now) → t.strings = s.strings ∧ t.zcTs = s.zcTs ∧
      t.prevIn = s.prevIn)

/-- R67: only TICK writes `out`; RESET writes it only to its reset value. An EDGE or a CONFIG shows no
output of its own (R14). -/
def Obligations.OutputChangesOnlyAtTick : Prop :=
  ∀ (i : Instr) (s t : State), exec i s = .next t → i ≠ .tick →
    (t.out = s.out ∨ ((∃ inp, i = .reset inp) ∧ t.out = List.replicate s.params.nstr false)) ∧
    ((∃ inp now, i = .edge inp now) ∨ (∃ v, i = .config v) → t.observed = s.observed)

/-- The machine invariant, kept by every step from every state that meets it: widths and ranges of R18 to
R29, `NSTR` records and outputs, and the configuration elements those of one setting (R20 to R23, R73
to R75). -/
def Obligations.StepKeepsTheInvariant : Prop :=
  ∀ s t : State, s.Inv → step s = .next t → t.Inv

/-- The reset state meets the invariant, and so does every state before the first RESET (`init = 0`) at
well-formed parameters, whatever words wait and whatever its other fields hold. -/
def Obligations.ResetMeetsTheInvariant : Prop :=
  State.reset.Inv ∧ ∀ s : State, s.init = false → s.params.Wf → s.Inv

/-- R41, R39: after a CONFIG and until the next, every state of a run (without RESET) holds the whole table
that CONFIG built: no TICK reads a partly rebuilt table. -/
def Obligations.TableStandsUntilTheNextConfig : Prop :=
  ∀ (s t u : State) (v : Setting) (is : List Instr),
    exec (.config v) s = .next t →
    (∀ i ∈ is, (∀ v', i ≠ .config v') ∧ ∀ inp, i ≠ .reset inp) →
    execAll is t = .next u →
    u.table = buildTable s.params (clampMaxdc s.params (s.params.maxdcRaw v.toNat)) ∧
      u.maxdc = clampMaxdc s.params (s.params.maxdcRaw v.toNat) ∧
      u.cfgDegenerate = decide (s.params.maxdcRaw v.toNat < 1)
end

