-- ==== Sys2Proof/Laws/State.lean ====
section
/-! SUPPORT. What each named update of State leaves of each field: one lemma per field, so that no later
proof unfolds an update. -/

namespace Sys2Proof.Machine

/-! The zero-crossing part of an EDGE writes `zcTs` and `strings` only. -/

section
variable (c inp : Lines) (n : Nat) (s : State)

@[simp] theorem zcPart_params : (zcPart c inp n s).params = s.params := by unfold zcPart; split <;> rfl
@[simp] theorem zcPart_init : (zcPart c inp n s).init = s.init := by unfold zcPart; split <;> rfl
@[simp] theorem zcPart_tick : (zcPart c inp n s).tick = s.tick := by unfold zcPart; split <;> rfl
@[simp] theorem zcPart_voltage : (zcPart c inp n s).voltage = s.voltage := by unfold zcPart; split <;> rfl
@[simp] theorem zcPart_maxdc : (zcPart c inp n s).maxdc = s.maxdc := by unfold zcPart; split <;> rfl
@[simp] theorem zcPart_tableBuilt : (zcPart c inp n s).tableBuilt = s.tableBuilt := by
  unfold zcPart; split <;> rfl
@[simp] theorem zcPart_table : (zcPart c inp n s).table = s.table := by unfold zcPart; split <;> rfl
@[simp] theorem zcPart_cfgDegenerate : (zcPart c inp n s).cfgDegenerate = s.cfgDegenerate := by
  unfold zcPart; split <;> rfl
@[simp] theorem zcPart_prevIn : (zcPart c inp n s).prevIn = s.prevIn := by unfold zcPart; split <;> rfl
@[simp] theorem zcPart_out : (zcPart c inp n s).out = s.out := by unfold zcPart; split <;> rfl
@[simp] theorem zcPart_events : (zcPart c inp n s).events = s.events := by unfold zcPart; split <;> rfl
@[simp] theorem zcPart_snapshots : (zcPart c inp n s).snapshots = s.snapshots := by
  unfold zcPart; split <;> rfl

/-! The string part of an EDGE writes `strings` only. -/

@[simp] theorem stringPart_params : (stringPart c n s).params = s.params := rfl
@[simp] theorem stringPart_init : (stringPart c n s).init = s.init := rfl
@[simp] theorem stringPart_tick : (stringPart c n s).tick = s.tick := rfl
@[simp] theorem stringPart_voltage : (stringPart c n s).voltage = s.voltage := rfl
@[simp] theorem stringPart_maxdc : (stringPart c n s).maxdc = s.maxdc := rfl
@[simp] theorem stringPart_tableBuilt : (stringPart c n s).tableBuilt = s.tableBuilt := rfl
@[simp] theorem stringPart_table : (stringPart c n s).table = s.table := rfl
@[simp] theorem stringPart_cfgDegenerate : (stringPart c n s).cfgDegenerate = s.cfgDegenerate := rfl
@[simp] theorem stringPart_zcTs : (stringPart c n s).zcTs = s.zcTs := rfl
@[simp] theorem stringPart_prevIn : (stringPart c n s).prevIn = s.prevIn := rfl
@[simp] theorem stringPart_out : (stringPart c n s).out = s.out := rfl
@[simp] theorem stringPart_events : (stringPart c n s).events = s.events := rfl
@[simp] theorem stringPart_snapshots : (stringPart c n s).snapshots = s.snapshots := rfl
end

/-! The block of a state is the state but for what the diagnostic reader received. -/

section
variable (s : State)

@[simp] theorem block_params : s.block.params = s.params := rfl
@[simp] theorem block_init : s.block.init = s.init := rfl
@[simp] theorem block_tick : s.block.tick = s.tick := rfl
@[simp] theorem block_voltage : s.block.voltage = s.voltage := rfl
@[simp] theorem block_maxdc : s.block.maxdc = s.maxdc := rfl
@[simp] theorem block_tableBuilt : s.block.tableBuilt = s.tableBuilt := rfl
@[simp] theorem block_table : s.block.table = s.table := rfl
@[simp] theorem block_cfgDegenerate : s.block.cfgDegenerate = s.cfgDegenerate := rfl
@[simp] theorem block_strings : s.block.strings = s.strings := rfl
@[simp] theorem block_zcTs : s.block.zcTs = s.zcTs := rfl
@[simp] theorem block_prevIn : s.block.prevIn = s.prevIn := rfl
@[simp] theorem block_out : s.block.out = s.out := rfl
@[simp] theorem block_events : s.block.events = s.events := rfl
@[simp] theorem block_snapshots : s.block.snapshots = [] := rfl
@[simp] theorem block_block : s.block.block = s.block := rfl

/-! Sending a word changes the waiting events only. -/

@[simp] theorem withFetchWord_events (nbits w : Nat) :
    (s.withFetchWord nbits w).events = BitVec.ofNat 64 (w % 2 ^ nbits) :: s.events := rfl
@[simp] theorem withFetchWord_else (nbits w : Nat) :
    { s.withFetchWord nbits w with events := s.events } = s := rfl
end

/-! Two states are equal when their blocks are and the reader received the same. -/

theorem eq_of_block_eq {s t : State} (h : s.block = t.block) (hs : s.snapshots = t.snapshots) : s = t := by
  cases s; cases t; simp_all [State.block]

end Sys2Proof.Machine
end

