-- ==== Sys2Proof/Laws/Guards.lean ====
section
/-! SUPPORT. When an event completes and what it then leaves: one inversion lemma per event, and one for
`exec` as a whole, which later proofs cite instead of unfolding a meaning. -/

namespace Sys2Proof.Machine

theorem ifReset_of_init {s : State} (h : s.init = true) (r : Result) : ifReset s r = r := by
  simp [ifReset, h]

theorem ifReset_of_not_init {s : State} (h : s.init = false) (r : Result) :
    ifReset s r = .fault .notReset := by
  simp [ifReset, h]

theorem ifReset_eq_next {s t : State} {r : Result} :
    ifReset s r = .next t ↔ s.init = true ∧ r = .next t := by
  cases h : s.init <;> simp [ifReset, h]

theorem withEntry_of_some {s : State} {pos thr : Nat} (hb : s.tableBuilt = true)
    (ht : s.table[pos]? = some thr) (k : Nat → Result) : withEntry s pos k = k thr := by
  simp [withEntry, hb, ht]

theorem withEntry_of_unbuilt {s : State} (h : s.tableBuilt = false) (pos : Nat) (k : Nat → Result) :
    withEntry s pos k = .fault .tableUnbuilt := by
  simp [withEntry, h]

theorem withEntry_eq_next {s t : State} {pos : Nat} {k : Nat → Result} :
    withEntry s pos k = .next t ↔
      s.tableBuilt = true ∧ ∃ thr, s.table[pos]? = some thr ∧ k thr = .next t := by
  unfold withEntry
  cases hb : s.tableBuilt <;> cases hp : s.table[pos]? <;> simp

/-- What a completed TICK was and left. -/
theorem execTick_eq_next {s t : State} :
    execTick s = .next t ↔ s.init = true ∧ s.tableBuilt = true ∧
      ∃ thr, s.table[cyclePos s.params (nextTick s.params s.tick)]? = some thr ∧
        t = { s with tick := nextTick s.params s.tick, out := driveAll s.strings thr } := by
  simp only [execTick, ifReset_eq_next, withEntry_eq_next, Host.Outcome.next.injEq, eq_comm (a := t)]

/-- What a completed EDGE left. -/
theorem execEdge_eq_next {s t : State} {inp : Lines} {now : Stamp} :
    execEdge inp now s = .next t ↔ s.init = true ∧
      t = stringPart (changeSet inp s.prevIn) now.toNat
        (zcPart (changeSet inp s.prevIn) inp now.toNat { s with prevIn := inp }) := by
  simp only [execEdge, ifReset_eq_next, stampValue, Host.Outcome.next.injEq, eq_comm (a := t)]

/-- What a completed CONFIG left. -/
theorem execConfig_eq_next {s t : State} {v : Setting} :
    execConfig v s = .next t ↔ s.init = true ∧
      t = { s with
        voltage := v.toNat
        maxdc := clampMaxdc s.params (s.params.maxdcRaw v.toNat)
        cfgDegenerate := degenerate (s.params.maxdcRaw v.toNat)
        table := buildTable s.params (clampMaxdc s.params (s.params.maxdcRaw v.toNat))
        tableBuilt := true } := by
  simp only [execConfig, ifReset_eq_next, settingValue, Host.Outcome.next.injEq, eq_comm (a := t)]

/-- What a completed SNAP left. -/
theorem execSnap_eq_next {s t : State} :
    execSnap s = .next t ↔ s.init = true ∧ t = { s with snapshots := s.snapshots ++ [s.snapshot] } := by
  simp only [execSnap, ifReset_eq_next, Host.Outcome.next.injEq, eq_comm (a := t)]

/-- The state an EDGE leaves, field by field but for `zcTs` and `strings`. -/
theorem execEdge_frame {s t : State} {inp : Lines} {now : Stamp} (h : execEdge inp now s = .next t) :
    t = { s with prevIn := inp, zcTs := t.zcTs, strings := t.strings } := by
  obtain ⟨-, rfl⟩ := execEdge_eq_next.1 h
  unfold zcPart
  split <;> rfl

/-- No event changes the parameters or the waiting events (10_state.md R16; log 1). -/
theorem exec_params_events {i : Instr} {s t : State} (h : exec i s = .next t) :
    t.params = s.params ∧ t.events = s.events := by
  cases i with
  | tick => obtain ⟨-, -, thr, -, rfl⟩ := execTick_eq_next.1 h; exact ⟨rfl, rfl⟩
  | edge inp now => rw [execEdge_frame h]; exact ⟨rfl, rfl⟩
  | config v => obtain ⟨-, rfl⟩ := execConfig_eq_next.1 h; exact ⟨rfl, rfl⟩
  | snap => obtain ⟨-, rfl⟩ := execSnap_eq_next.1 h; exact ⟨rfl, rfl⟩
  | reset inp => cases h; exact ⟨rfl, rfl⟩

/-- After any completed event the block has been reset once. -/
theorem exec_init {i : Instr} {s t : State} (h : exec i s = .next t) : t.init = true := by
  cases i with
  | tick => obtain ⟨hi, -, thr, -, rfl⟩ := execTick_eq_next.1 h; exact hi
  | edge inp now => rw [execEdge_frame h]; exact (execEdge_eq_next.1 h).1
  | config v => obtain ⟨hi, rfl⟩ := execConfig_eq_next.1 h; exact hi
  | snap => obtain ⟨hi, rfl⟩ := execSnap_eq_next.1 h; exact hi
  | reset inp => cases h; rfl

theorem execAll_nil (s : State) : execAll [] s = .next s := rfl

theorem execAll_cons_of_next {i : Instr} {is : List Instr} {s t : State} (h : exec i s = .next t) :
    execAll (i :: is) s = execAll is t := by
  simp [execAll, h]

theorem execAll_cons_eq_next {i : Instr} {is : List Instr} {s u : State} :
    execAll (i :: is) s = .next u ↔ ∃ t, exec i s = .next t ∧ execAll is t = .next u := by
  cases h : exec i s <;> simp [execAll, h]

/-- A property that every event of a list keeps holds at the end of its run. -/
theorem execAll_keeps {P : State → Prop} {is : List Instr}
    (step : ∀ i ∈ is, ∀ s t, P s → exec i s = .next t → P t) :
    ∀ {s t : State}, P s → execAll is s = .next t → P t := by
  induction is with
  | nil => intro s t hs h; cases h; exact hs
  | cons i is ih =>
    intro s u hs h
    obtain ⟨t, ht, hu⟩ := execAll_cons_eq_next.1 h
    exact ih (fun j hj => step j (List.mem_cons_of_mem _ hj)) (step i List.mem_cons_self s t hs ht) hu

end Sys2Proof.Machine
end

