-- ==== Sys2Proof/Laws/Params.lean ====
section
/-! SUPPORT. What a well-formed parameter set gives (00_scope.md R6), one lemma per use. -/

namespace Sys2Proof

variable {p : Params}

theorem Params.Wf.nstr_pos (h : p.Wf) : 1 ≤ p.nstr := h.1.1
theorem Params.Wf.nstr_le (h : p.Wf) : p.nstr ≤ 28 := h.1.2
theorem Params.Wf.pwmN_pos (h : p.Wf) : 1 ≤ p.pwmN := h.2.1.1
theorem Params.Wf.l_pos (h : p.Wf) : 1 ≤ p.l := h.2.2.1.1
theorem Params.Wf.l_lt_sentinel (h : p.Wf) : p.l < p.sentinel := h.2.2.1.2.1
theorem Params.Wf.edges_length (h : p.Wf) : p.bandEdgesUs.length = 7 := h.2.2.2.2.1.1
theorem Params.Wf.edges_lt_win (h : p.Wf) : ∀ e ∈ p.bandEdgesUs, e < p.winUs := h.2.2.2.2.1.2.2
theorem Params.Wf.levels_length (h : p.Wf) : p.levelOfBand.length = 8 := h.2.2.2.2.2.1.1
theorem Params.Wf.levels_down (h : p.Wf) : nonIncreasing p.levelOfBand = true := h.2.2.2.2.2.1.2.1
theorem Params.Wf.levels_range (h : p.Wf) : ∀ v ∈ p.levelOfBand, 1 ≤ v ∧ v ≤ p.l :=
  h.2.2.2.2.2.1.2.2
theorem Params.Wf.tsW_le (h : p.Wf) : p.tsW ≤ 32 := h.2.2.2.2.2.2.2.2.1
theorem Params.Wf.named_raw (h : p.Wf) : ∀ e ∈ p.maxdcRawAt, e.1 ≤ p.vfDv → e.2 ≤ 0 :=
  h.2.2.2.2.2.2.2.1.2

/-- The window is not empty: every band boundary, and there are seven, lies below it. -/
theorem Params.Wf.win_pos (h : p.Wf) : 0 < p.winUs := by
  have hlen := h.edges_length
  cases hb : p.bandEdgesUs with
  | nil => simp [hb] at hlen
  | cons e es =>
    have := h.edges_lt_win e (by simp [hb])
    omega

theorem rawAt_mem {l : List (Nat × Int)} {v : Nat} {r : Int} (h : rawAt l v = some r) : (v, r) ∈ l := by
  induction l with
  | nil => simp [rawAt] at h
  | cons e es ih =>
    obtain ⟨u, q⟩ := e
    unfold rawAt at h
    split at h
    · next huv => simp_all
    · exact List.mem_cons_of_mem _ (ih h)

/-- R6: a setting at or below the forward drop has no positive step count. -/
theorem Params.Wf.maxdcRaw_nonpos (h : p.Wf) {v : Nat} (hv : v ≤ p.vfDv) : p.maxdcRaw v ≤ 0 := by
  unfold Params.maxdcRaw
  split
  · next r hr => exact h.named_raw _ (rawAt_mem hr) hv
  · simp [hv]

/-- Where the parameter set names the value, `MAXDC_RAW` is that value. -/
theorem Params.maxdcRaw_named {v : Nat} {r : Int} (h : rawAt p.maxdcRawAt v = some r) :
    p.maxdcRaw v = r := by
  simp [Params.maxdcRaw, h]

/-- A non-increasing list: a later entry is at most an earlier one. -/
theorem nonIncreasing_get {l : List Nat} (h : nonIncreasing l = true) :
    ∀ {i j : Nat} {a b : Nat}, i ≤ j → l[i]? = some a → l[j]? = some b → b ≤ a := by
  induction l with
  | nil => simp
  | cons x xs ih =>
    have htail : nonIncreasing xs = true := by
      cases xs with
      | nil => rfl
      | cons y ys => simp [nonIncreasing] at h; exact h.2
    have hhead : ∀ (j b : Nat), xs[j]? = some b → b ≤ x := by
      cases xs with
      | nil => simp
      | cons y ys =>
        simp [nonIncreasing] at h
        intro j b hb
        exact le_trans (ih htail (Nat.zero_le j) (by simp) hb) h.1
    intro i j a b hij ha hb
    cases j with
    | zero => obtain rfl : i = 0 := by omega
              simp_all
    | succ j =>
      cases i with
      | zero => simp at ha hb; subst ha; exact hhead j b hb
      | succ i =>
        rw [List.getElem?_cons_succ] at ha hb
        exact ih htail (by omega) ha hb

end Sys2Proof
end

