-- ==== Sys2Proof/Laws/Table.lean ====
section
/-! SUPPORT. The table builder's operations (42_table_builder.md R73 to R75). -/

namespace Sys2Proof.Machine

variable {p : Params}

theorem clampMaxdc_of_lt {raw : Int} (h : raw < 1) : clampMaxdc p raw = 1 := by simp [clampMaxdc, h]

theorem clampMaxdc_of_gt {raw : Int} (h1 : 1 ≤ raw) (h : (p.pwmN : Int) < raw) :
    clampMaxdc p raw = p.pwmN := by
  have : ¬ raw < 1 := by omega
  simp [clampMaxdc, this, h]

theorem clampMaxdc_of_mem {raw : Int} (h1 : 1 ≤ raw) (h : raw ≤ (p.pwmN : Int)) :
    ((clampMaxdc p raw : Nat) : Int) = raw := by
  have h2 : ¬ raw < 1 := by omega
  have h3 : ¬ (p.pwmN : Int) < raw := by omega
  simp [clampMaxdc, h2, h3]
  omega

theorem clampMaxdc_pos (h : p.Wf) (raw : Int) : 1 ≤ clampMaxdc p raw := by
  have := h.pwmN_pos
  unfold clampMaxdc
  split
  · exact le_rfl
  · split <;> omega

theorem clampMaxdc_le (h : p.Wf) (raw : Int) : clampMaxdc p raw ≤ p.pwmN := by
  have := h.pwmN_pos
  unfold clampMaxdc
  split
  · assumption
  · split <;> omega

@[simp] theorem buildTable_length (m : Nat) : (buildTable p m).length = p.pwmN := by simp [buildTable]

theorem buildTable_getElem? {m i : Nat} (h : i < p.pwmN) :
    (buildTable p m)[i]? = some (tableEntry p m i) := by
  simp [buildTable, h]

theorem buildTable_some {m i x : Nat} (h : (buildTable p m)[i]? = some x) :
    i < p.pwmN ∧ x = tableEntry p m i := by
  have hi : i < p.pwmN := by
    have := List.getElem?_eq_some_iff.1 h
    simpa using this.1
  rw [buildTable_getElem? hi] at h
  exact ⟨hi, (Option.some.inj h).symm⟩

theorem tableEntry_ramp {m i : Nat} (h : i < m) : tableEntry p m i = i * p.l / m + 1 := by
  simp [tableEntry, h]

theorem tableEntry_sentinel {m i : Nat} (h : m ≤ i) : tableEntry p m i = p.sentinel := by
  simp [tableEntry, Nat.not_lt.2 h]

/-- A ramp entry is a level (R74). -/
theorem tableEntry_ramp_le (h : p.Wf) {m i : Nat} (hi : i < m) : tableEntry p m i ≤ p.l := by
  rw [tableEntry_ramp hi]
  have hl := h.l_pos
  have : i * p.l / m < p.l := by
    rw [Nat.div_lt_iff_lt_mul (by omega), Nat.mul_comm p.l]
    exact Nat.mul_lt_mul_of_pos_right hi hl
  omega

/-- Every entry is at least 1 (R70). -/
theorem tableEntry_pos (h : p.Wf) (m i : Nat) : 1 ≤ tableEntry p m i := by
  by_cases hi : i < m
  · rw [tableEntry_ramp hi]; exact Nat.le_add_left 1 _
  · have := h.l_lt_sentinel
    rw [tableEntry_sentinel (by omega)]; omega

/-- Position of a counter value is in the table. -/
theorem cyclePos_lt (h : p.Wf) (tick : Nat) : cyclePos p tick < p.pwmN := Nat.mod_lt _ h.pwmN_pos

theorem nextTick_lt (tick : Nat) : nextTick p tick < 2 ^ p.tickW := Nat.mod_lt _ (by positivity)

@[simp] theorem driveAll_length (rs : List StringRec) (thr : Nat) : (driveAll rs thr).length = rs.length := by
  simp [driveAll]

theorem driveAll_getElem? {rs : List StringRec} {k : Nat} {r : StringRec} (h : rs[k]? = some r) (thr : Nat) :
    (driveAll rs thr)[k]? = some (decide (thr ≤ r.brightness)) := by
  simp [driveAll, h, outputDriver]

end Sys2Proof.Machine
end

