-- ==== Sys2Proof/Laws/Detector.lean ====
section
/-! SUPPORT. The edge detector's operations (43_edge_detector.md R82 to R96): elapsed times, acceptance
tests against their wording in Safety.lean, and the one record lemma of an EDGE. -/

namespace Sys2Proof.Machine

variable {p : Params}

theorem elapsed_lt (p : Params) (a b : Nat) : elapsed p a b < 2 ^ p.tsW := by
  unfold elapsed
  have hpos : (0 : Int) < ((2 ^ p.tsW : Nat) : Int) := by positivity
  have h1 := Int.emod_nonneg ((a : Int) - b) (ne_of_gt hpos)
  have h2 := Int.emod_lt_of_pos ((a : Int) - b) hpos
  omega

/-- The elapsed time as a natural remainder, for a stored timestamp in its range. -/
theorem elapsed_eq {a b : Nat} (hb : b ≤ 2 ^ p.tsW) : elapsed p a b = (a + (2 ^ p.tsW - b)) % 2 ^ p.tsW := by
  unfold elapsed
  have : ((a : Int) - b) % ((2 ^ p.tsW : Nat) : Int) = ((a + (2 ^ p.tsW - b) : Nat) : Int) % ((2 ^ p.tsW : Nat) : Int) := by
    rw [← Int.add_emod_right ((a : Int) - b)]
    congr 1
    omega
  rw [this, ← Int.natCast_emod, Int.toNat_natCast]

@[simp] theorem elapsed_self (p : Params) (a : Nat) : elapsed p a a = 0 := by simp [elapsed]

theorem elapsed_zero {a : Nat} (h : a < 2 ^ p.tsW) : elapsed p a 0 = a := by
  rw [elapsed_eq (Nat.zero_le _)]
  simp [Nat.mod_eq_of_lt h]

theorem changeSet_bit (inp prev : Lines) (j : Nat) :
    (changeSet inp prev).getLsbD j = true ↔ inp.getLsbD j ≠ prev.getLsbD j := by
  simp [changeSet]

theorem zcAccepted_iff {s : State} {inp : Lines} {now : Stamp} :
    zcAccepted s.params (changeSet inp s.prevIn) inp now.toNat s.zcTs = true ↔ s.ZcTaken inp now := by
  simp only [zcAccepted, isZcEdge, zcLine, Bool.and_eq_true, changeSet_bit, beq_iff_eq, decide_eq_true_eq,
    and_assoc]

theorem stringAccepted_iff {s : State} {inp : Lines} {now : Stamp} {k : Nat} {r : StringRec} :
    stringAccepted s.params (changeSet inp s.prevIn) now.toNat k r = true ↔ s.EdgeTaken inp now k r := by
  simp only [stringAccepted, stringLine, Bool.and_eq_true, changeSet_bit, decide_eq_true_eq, ge_iff_le]

/-- `clearSeen (resolve …)` in one record. -/
theorem clearSeen_resolve (p : Params) (inp : Lines) (k : Nat) (r : StringRec) :
    clearSeen (resolve p inp k r) =
      { brightness := if r.seen = true then r.brightness else if inp.getLsbD (k + 1) = true then p.l else 0
        lastEdgeTime := r.lastEdgeTime
        seen := false } := by
  unfold clearSeen resolve stringLine
  split <;> simp

/-- The record of string `k` and the phase reference that the zero-crossing part leaves. -/
theorem zcPart_of_taken {s : State} {inp : Lines} {now : Stamp} (h : s.ZcTaken inp now) :
    zcPart (changeSet inp s.prevIn) inp now.toNat { s with prevIn := inp } =
      { s with
        prevIn := inp
        zcTs := now.toNat
        strings := (s.strings.mapIdx (resolve s.params inp)).map clearSeen } := by
  unfold zcPart
  rw [if_pos (zcAccepted_iff.2 h)]

theorem zcPart_of_not_taken {s : State} {inp : Lines} {now : Stamp} (h : ¬ s.ZcTaken inp now) :
    zcPart (changeSet inp s.prevIn) inp now.toNat { s with prevIn := inp } = { s with prevIn := inp } := by
  unfold zcPart
  rw [if_neg (fun hc => h (zcAccepted_iff.1 hc))]

/-- The phase reference after an EDGE. -/
theorem execEdge_zcTs {s t : State} {inp : Lines} {now : Stamp} (h : execEdge inp now s = .next t) :
    (s.ZcTaken inp now → t.zcTs = now.toNat) ∧ (¬ s.ZcTaken inp now → t.zcTs = s.zcTs) := by
  obtain ⟨-, rfl⟩ := execEdge_eq_next.1 h
  exact ⟨fun hz => by rw [zcPart_of_taken hz]; rfl, fun hz => by rw [zcPart_of_not_taken hz]; rfl⟩

@[simp] theorem execEdge_strings_length {s t : State} {inp : Lines} {now : Stamp}
    (h : execEdge inp now s = .next t) : t.strings.length = s.strings.length := by
  obtain ⟨-, rfl⟩ := execEdge_eq_next.1 h
  unfold zcPart
  split <;> simp [stringPart]

/-- The record of string `k` after an EDGE: the string part applied to the record the zero-crossing part
left, with the phase reference after it. -/
theorem execEdge_record {s t : State} {inp : Lines} {now : Stamp} (h : execEdge inp now s = .next t)
    {k : Nat} {r : StringRec} (hr : s.strings[k]? = some r) :
    (s.ZcTaken inp now → t.strings[k]? = some
      (measureEdge s.params (changeSet inp s.prevIn) now.toNat now.toNat k (clearSeen (resolve s.params inp k r)))) ∧
    (¬ s.ZcTaken inp now → t.strings[k]? = some
      (measureEdge s.params (changeSet inp s.prevIn) now.toNat s.zcTs k r)) := by
  obtain ⟨-, rfl⟩ := execEdge_eq_next.1 h
  constructor
  · intro hz; rw [zcPart_of_taken hz]; simp [stringPart, hr]
  · intro hz; rw [zcPart_of_not_taken hz]; simp [stringPart, hr]

/-- `measureEdge` is a function of the record through acceptance, window and `OOW_RECORDS_EDGE` only. -/
theorem measureEdge_of_not_accepted {c : Lines} {n z k : Nat} {r : StringRec}
    (h : stringAccepted p c n k r = false) : measureEdge p c n z k r = r := by
  simp [measureEdge, h]

theorem measureEdge_in_window {c : Lines} {n z k : Nat} {r : StringRec} (h : stringAccepted p c n k r = true)
    (hw : elapsed p n z < p.winUs) :
    measureEdge p c n z k r = { brightness := level p (elapsed p n z), lastEdgeTime := n, seen := true } := by
  simp [measureEdge, h, inWindow, hw]

theorem measureEdge_out_of_window {c : Lines} {n z k : Nat} {r : StringRec} (h : stringAccepted p c n k r = true)
    (hw : p.winUs ≤ elapsed p n z) :
    measureEdge p c n z k r =
      { r with lastEdgeTime := if p.oowRecordsEdge = true then n else r.lastEdgeTime } := by
  cases ho : p.oowRecordsEdge <;> simp [measureEdge, h, inWindow, Nat.not_lt.2 hw, ho]

/-- The band of a delay is one of `0 .. 7` (R93). -/
theorem band_le (h : p.Wf) (dt : Nat) : band p dt ≤ 7 := by
  have := List.countP_le_length (p := fun e => decide (dt ≥ e)) (l := p.bandEdgesUs)
  rw [h.edges_length] at this
  exact this

/-- A longer delay has reached no fewer boundaries. -/
theorem band_mono (p : Params) {dt dt' : Nat} (h : dt ≤ dt') : band p dt ≤ band p dt' := by
  unfold band
  apply List.countP_mono_left
  intro e _ he
  simp only [decide_eq_true_eq, ge_iff_le] at he ⊢
  omega

/-- At a well-formed parameter set every delay has a level: the totalisation of `level` is not reached. -/
theorem level_some (h : p.Wf) (dt : Nat) : p.levelOfBand[band p dt]? = some (level p dt) := by
  have hb : band p dt < p.levelOfBand.length := by
    have := band_le h dt
    rw [h.levels_length]; omega
  simp [level, List.getD, hb]

theorem level_mem (h : p.Wf) (dt : Nat) : level p dt ∈ p.levelOfBand :=
  List.mem_of_getElem? (level_some h dt)

theorem level_pos (h : p.Wf) (dt : Nat) : 1 ≤ level p dt := (h.levels_range _ (level_mem h dt)).1

theorem level_le (h : p.Wf) (dt : Nat) : level p dt ≤ p.l := (h.levels_range _ (level_mem h dt)).2

end Sys2Proof.Machine
end

