-- ==== Sys2Proof/Laws/Fields.lean ====
section
/-! SUPPORT. The fields of an event word (30_encoding.md R47 to R53) as arithmetic on its number. -/

namespace Sys2Proof

theorem field_lt (w : EventWord) (hi lo : Nat) : field w hi lo < 2 ^ (hi + 1 - lo) :=
  Nat.mod_lt _ (by positivity)

theorem clear_iff (w : EventWord) (hi lo : Nat) : clear w hi lo = true ↔ field w hi lo = 0 := by
  simp [clear]

/-- An append is a number with the left part above the right part. -/
theorem toNat_append_add {n m : Nat} (x : BitVec n) (y : BitVec m) :
    (x ++ y).toNat = 2 ^ m * x.toNat + y.toNat := by
  rw [BitVec.toNat_append, Nat.shiftLeft_eq, Nat.mul_comm]
  exact (Nat.two_pow_add_eq_or_of_lt y.isLt _).symm

/-! The number of an encoded event: `op`, then bits [60:32], then bits [31:0]. -/

theorem encode_tick_toNat : (encode .tick).toNat = 0 := by decide

theorem encode_edge_toNat (inp : Lines) (now : Stamp) :
    (encode (.edge inp now)).toNat = 2 ^ 61 + inp.toNat * 2 ^ 32 + now.toNat := by
  simp only [encode, toNat_append_add]
  simp
  omega

theorem encode_config_toNat (v : Setting) : (encode (.config v)).toNat = 2 * 2 ^ 61 + v.toNat := by
  simp only [encode, toNat_append_add]
  simp

theorem encode_snap_toNat : (encode .snap).toNat = 3 * 2 ^ 61 := by decide

theorem encode_reset_toNat (inp : Lines) :
    (encode (.reset inp)).toNat = 4 * 2 ^ 61 + inp.toNat * 2 ^ 32 := by
  simp only [encode, toNat_append_add]
  simp
  omega

end Sys2Proof
end

