-- ==== Sys2Proof/Laws/PerInstr.lean ====
section
/-! SUPPORT. A fact about each event as syntax: the encoder puts the event's own `op` in bits [63:61]
(30_encoding.md R47). -/

namespace Sys2Proof.Laws.OpField

/-- Bits [63:61] of the encoded event are its `op`. -/
def Statement (i : Instr) : Prop := (encode i).extractLsb' 61 3 = i.op

theorem of_toNat {i : Instr} (h : (encode i).toNat / 2 ^ 61 % 8 = i.op.toNat) : Statement i := by
  apply BitVec.eq_of_toNat_eq
  rw [BitVec.extractLsb'_toNat, Nat.shiftRight_eq_div_pow]
  exact h

theorem tick : Statement .tick := of_toNat (by decide)

theorem edge (inp : Lines) (now : Stamp) : Statement (.edge inp now) :=
  of_toNat (by
    have h1 := inp.isLt
    have h2 := now.isLt
    rw [encode_edge_toNat]
    simp only [Instr.op, BitVec.toNat_ofNat]
    omega)

theorem config (voltage : Setting) : Statement (.config voltage) :=
  of_toNat (by
    have h1 := voltage.isLt
    rw [encode_config_toNat]
    simp only [Instr.op, BitVec.toNat_ofNat]
    omega)

theorem snap : Statement .snap := of_toNat (by decide)

theorem reset (inp : Lines) : Statement (.reset inp) :=
  of_toNat (by
    have h1 := inp.isLt
    rw [encode_reset_toNat]
    simp only [Instr.op, BitVec.toNat_ofNat]
    omega)

end Sys2Proof.Laws.OpField
end

