-- ==== Sys2Proof/Tests/Slice0.lean ====
section
/-! SUPPORT. Tests and witnesses. Expected values come from 95_test_vectors.md and 30_encoding.md, named
by section; T8 and its `MAXDC_RAW` values are the test configuration of 95_test_vectors.md section 0. -/

namespace Sys2Proof.Tests

open Sys2Proof Sys2Proof.Machine

/-! ## Helpers -/

/-- Configuration T8 of 95_test_vectors.md section 0. -/
def t8 : Params :=
  { Params.default with
    pwmN := 8
    maxdcRawAt := [(20, -3), (32, 0), (33, 1), (63, 4), (90, 8), (100, 9), (120, 100)] }

/-- After `reset in=0b000000` at T8. -/
def reset8 : State := { State.reset with params := t8 }

/-- After `reset in=0b000000`, `config v=63` at T8. -/
def live8 : State :=
  { reset8 with
    voltage := 63, maxdc := 4, tableBuilt := true, table := [1, 3, 5, 7, 255, 255, 255, 255] }

/-- A record with a brightness only. -/
def bright (b : Nat) : StringRec := { brightness := b, lastEdgeTime := 0, seen := false }

/-- `live8` with these brightnesses and this Tick Counter. -/
def lit8 (tick : Nat) (bs : List Nat) : State := { live8 with tick := tick, strings := bs.map bright }

/-- L2.7, before the coincident EDGE: string 0 measured at 7000, its line high. -/
def coincident : State :=
  { live8 with
    strings := [⟨6, 7000, true⟩, bright 0, bright 0, bright 0, bright 0]
    zcTs := 5000
    prevIn := 0b000010#29 }

/-- L2.6, before step 5: string 0's line low, last edge at 9499. -/
def late : State :=
  { live8 with
    strings := [⟨4, 9499, true⟩, bright 0, bright 0, bright 0, bright 0]
    zcTs := 5000
    prevIn := 0b000001#29 }

/-- The fault of an outcome. -/
def faultOf : Result → Option Fault
  | .next _ => none
  | .fault f => some f
  | .refused _ => none

/-- The refusal of an outcome. -/
def refusalOf : Result → Option Refusal
  | .next _ => none
  | .fault _ => none
  | .refused r => some r

/-- Brightnesses after an outcome. -/
def brights (r : Result) : Option (List Nat) :=
  (nextState r).map fun s => s.strings.map StringRec.brightness

/-- The line as characters. -/
def line (s : String) : List Char := s.toList

theorem t8_wf : t8.Wf := by decide

theorem default_wf : Params.default.Wf := by decide

theorem live8_inv : live8.Inv where
  params_wf := t8_wf
  live _ :=
    { tick_lt := by decide
      voltage_lt := by decide
      strings_length := by decide
      brightness_le := by decide
      lastEdge_lt := by decide
      zcTs_lt := by decide
      prevIn_lt := by decide
      out_length := by decide
      unbuilt := by decide
      built := fun _ => by decide }

/-- `live8` with other brightnesses and another counter in their ranges meets the invariant too. -/
theorem lit8_inv {tick : Nat} {bs : List Nat} (ht : tick < 2 ^ 32) (hl : bs.length = 5)
    (hb : ∀ b ∈ bs, b ≤ 8) : (lit8 tick bs).Inv where
  params_wf := t8_wf
  live _ :=
    { tick_lt := ht
      voltage_lt := by show 63 < 2 ^ 16; decide
      strings_length := by simp [lit8, hl, live8, reset8, t8, Params.default]
      brightness_le := by simpa [lit8, bright, live8, reset8, t8, Params.default] using hb
      lastEdge_lt := by simp [lit8, bright]
      zcTs_lt := by show 0 < 2 ^ 32; decide
      prevIn_lt := by show 0 < 2 ^ 6; decide
      out_length := rfl
      unbuilt := by intro h; cases h
      built := fun _ => (live8_inv.live rfl).built rfl }

/-! ## Decoding: words written out from 30_encoding.md and L2.11 -/

theorem test_decode_tick : decode t8 0b0000000000000000000000000000000000000000000000000000000000000000#64 = .event .tick := by
  decide

theorem test_decode_edge :
    decode t8 (0b001#3 ++ 0b00000000000000000000000#23 ++ 0b000001#6 ++ 0b00000000000000000001001110001000#32)
      = .event (.edge 0b000001#29 5000#32) ∧
    decode t8 0x2000003FFFFFFFFF#64 = .event (.edge 0b111111#29 0xFFFFFFFF#32) := by
  decide

theorem test_decode_config :
    decode t8 (0b010#3 ++ 0#45 ++ 0b0000000000111111#16) = .event (.config 63#16) ∧
    decode t8 0x400000000000FFFF#64 = .event (.config 65535#16) := by
  decide

theorem test_decode_snap : decode t8 0x6000000000000000#64 = .event .snap := by decide

theorem test_decode_reset :
    decode t8 (0b100#3 ++ 0b00000000000000000000000#23 ++ 0b001000#6 ++ 0#32) = .event (.reset 0b001000#29) ∧
    decode t8 0x8000003F00000000#64 = .event (.reset 0b111111#29) := by
  decide

theorem test_decode_malformed :
    [0x0000000000000001#64, 0x2000004000000000#64, 0x200000FFFFFFFFFF#64, 0x4000000000010000#64,
      0x6000000000000001#64, 0x8000000800000001#64].all (fun w => decode t8 w == .malformedEvent) = true := by
  decide

theorem test_decode_reserved :
    [0xA000000000000000#64, 0xC000000000000000#64, 0xE000000000000000#64, 0xFFFFFFFFFFFFFFFF#64].all
      (fun w => decode t8 w == .reservedEvent) = true := by
  decide

/-- R49 and R50 at other parameters: the width of `in` follows `NSTR`, that of `now` follows `TS_W`. -/
theorem test_decode_other_widths :
    decode { t8 with nstr := 28 } 0x3FFFFFFF00000000#64 = .event (.edge 0x1FFFFFFF#29 0#32) ∧
    decode { t8 with nstr := 1 } 0x2000000400000000#64 = .malformedEvent ∧
    decode { t8 with tsW := 16 } 0x2000000100010000#64 = .malformedEvent ∧
    decode { t8 with tsW := 16 } 0x200000010000FFFF#64 = .event (.edge 1#29 0xFFFF#32) := by
  decide

theorem test_encode :
    encode .tick = 0#64 ∧ encode (.edge 0b000111#29 7500#32) = 0x2000000700001D4C#64 ∧
    encode (.config 120#16) = 0x4000000000000078#64 ∧ encode .snap = 0x6000000000000000#64 ∧
    encode (.reset 0b001000#29) = 0x8000000800000000#64 := by
  decide

theorem test_decodeTableWord :
    decodeTableWord 64 0x2000000100001388 = some (.edge 1#29 5000#32) ∧
    decodeTableWord 64 0xA000000000000000 = none ∧ decodeTableWord 72 0 = none := by
  decide

/-! ## WellFormed: one ill-formed term for each check, refused -/

theorem test_edge_lines_ill_formed :
    Instr.wellFormed t8 (.edge 0b1000000#29 0#32) = false ∧
    Instr.wellFormed t8 (.edge 0b111111#29 0xFFFFFFFF#32) = true := by
  decide

theorem test_edge_stamp_ill_formed : Instr.wellFormed { t8 with tsW := 16 } (.edge 0#29 0x10000#32) = false := by
  decide

theorem test_config_setting_ill_formed : Instr.wellFormed { t8 with vW := 8 } (.config 256#16) = false := by
  decide

theorem test_reset_lines_ill_formed : Instr.wellFormed t8 (.reset 0b1000000#29) = false := by decide

/-- Each constraint of R6 (and R36) broken alone. -/
theorem test_bad_parameters :
    [{ t8 with nstr := 0 }, { t8 with nstr := 29 }, { t8 with pwmN := 0 }, { t8 with pwmN := 65537 },
      { t8 with l := 0 }, { t8 with sentinel := 8 }, { t8 with sentinel := 256 }, { t8 with bW := 3 },
      { t8 with bandEdgesUs := [1000] }, { t8 with bandEdgesUs := [1, 2, 3, 4, 5, 6, 6] },
      { t8 with winUs := 7000 }, { t8 with levelOfBand := [1, 2, 2, 2, 2, 2, 2, 2] },
      { t8 with levelOfBand := [8, 7, 6, 5, 4, 3, 2, 0] }, { t8 with tsW := 13 }, { t8 with tsW := 33 },
      { t8 with maxdcRawAt := [(32, 1)] }, { t8 with atomicW := 7 }].all
      (fun p => !decide p.Wf) = true := by
  decide

/-! ## The step -/

/-- The first event after `State.reset`, one row of the opcode table each: TICK faults for want of a table
(R123), the others complete. -/
theorem test_first_events :
    faultOf (step (State.reset.withFetchWord 64 0x0000000000000000)) = some .tableUnbuilt ∧
    (nextState (step (State.reset.withFetchWord 64 0x2000000100001388))).map State.zcTs = some 5000 ∧
    (nextState (step (State.reset.withFetchWord 64 0x400000000000003F))).map State.tableBuilt = some true ∧
    (nextState (step (State.reset.withFetchWord 64 0x6000000000000000))).map State.snapshots
      = some [⟨0, [0, 0, 0, 0, 0], false⟩] ∧
    (nextState (step (State.reset.withFetchWord 64 0x8000000800000000))).map State.prevIn
      = some 0b001000#29 := by
  refine ⟨by decide, by decide, rfl, by decide, by decide⟩

/-- L2.11: a refused word is refused before the `NotReset` check. -/
theorem test_refused_before_reset :
    refusalOf (step ((State.powerOn t8).withFetchWord 64 0xA000000000000000)) = some .reservedEvent ∧
    refusalOf (step ((State.powerOn t8).withFetchWord 64 1)) = some .malformedEvent ∧
    faultOf (step ((State.powerOn t8).withFetchWord 64 0)) = some .notReset := by
  decide

/-- A step takes one word and leaves the next. -/
theorem test_step_takes_one :
    (nextState (step { live8 with events := [0#64, 0x6000000000000000#64] })).map
      (fun s => (s.tick, s.events)) = some (1, [0x6000000000000000#64]) := by
  decide

/-! ## TICK (L2.1) -/

theorem test_tick_threshold :
    (nextState (exec .tick (lit8 0 [0, 1, 2, 7, 8]))).map (fun s => (s.tick, s.out))
      = some (1, [false, false, false, true, true]) ∧
    (nextState (exec .tick (lit8 3 [8, 8, 8, 8, 8]))).map State.out
      = some [false, false, false, false, false] ∧
    (nextState (exec .tick (lit8 7 [0, 6, 0, 0, 0]))).map State.out
      = some [false, true, false, false, false] := by
  decide

/-- The wrap with `PWM_N = 48`: the TICK from `0xFFFFFFFE` takes position 15, the next one position 0. -/
theorem test_tick_wrap :
    nextTick Params.default 0xFFFFFFFF = 0 ∧ cyclePos Params.default 0xFFFFFFFF = 63 ∧
    cyclePos { t8 with pwmN := 48 } (nextTick t8 0xFFFFFFFE) = 15 ∧
    cyclePos { t8 with pwmN := 48 } (nextTick t8 0xFFFFFFFF) = 0 := by
  decide

/-! ## CONFIG (L2.2, L2.3) -/

theorem test_config_degenerate :
    (nextState (exec (.config 20#16) reset8)).map (fun s => (s.maxdc, s.cfgDegenerate, s.table, s.voltage))
      = some (1, true, [1, 255, 255, 255, 255, 255, 255, 255], 20) ∧
    (nextState (exec (.config 33#16) reset8)).map (fun s => (s.maxdc, s.cfgDegenerate)) = some (1, false) ∧
    (nextState (exec (.config 100#16) reset8)).map (fun s => (s.maxdc, s.cfgDegenerate, s.table))
      = some (8, false, [1, 2, 3, 4, 5, 6, 7, 8]) := by
  decide

theorem test_tables :
    buildTable t8 3 = [1, 3, 6, 255, 255, 255, 255, 255] ∧ buildTable t8 5 = [1, 2, 4, 5, 7, 255, 255, 255] ∧
    (buildTable Params.default 12).take 13 = [1, 1, 2, 3, 3, 4, 5, 5, 6, 7, 7, 8, 255] := by
  decide

/-! ## EDGE (L1.8, L2.5 to L2.8, P4) -/

/-- L2.7: the zero-crossing part first, then string 0 measured at delay 0. -/
theorem test_edge_coincident :
    (nextState (exec (.edge 0b000001#29 15000#32) coincident)).map
      (fun s => (s.zcTs, s.strings[0]?, s.prevIn)) = some (15000, some ⟨8, 15000, true⟩, 0b000001#29) := by
  decide

/-- P4 step 5: measured across the timestamp wrap; L2.8; L2.4 at its boundaries; L2.6 step 6. -/
theorem test_edge_delays :
    brights (exec (.edge 0b000010#29 1500#32) { live8 with zcTs := 0xFFFFFC18 }) = some [6, 0, 0, 0, 0] ∧
    elapsed t8 5 10 = 4294967291 ∧ elapsed t8 0x100 0xFFFFF000 = 4352 ∧
    [0, 999, 1000, 2500, 3999, 6999, 7000, 9999].map (level t8) = [8, 8, 7, 6, 5, 2, 1, 1] ∧
    (nextState (exec (.edge 0b000101#29 15000#32) late)).map (fun s => s.strings[1]?)
      = some (some ⟨0, 15000, false⟩) := by
  decide

/-- L2.5, polarity variant: with `ZC_RISING = false` the falling edge is the zero-crossing. -/
theorem test_edge_polarity :
    (nextState (exec (.edge 0b000000#29 5000#32)
      { live8 with params := { t8 with zcRising := false }, prevIn := 0b000001#29 })).map State.zcTs
      = some 5000 ∧
    (nextState (exec (.edge 0b000001#29 5100#32)
      { live8 with params := { t8 with zcRising := false } })).map State.zcTs = some 0 := by
  decide

/-! ## SNAP (L2.9), RESET (L2.10) -/

theorem test_snap :
    (nextState (exec .snap { lit8 0 [0, 6, 0, 0, 0] with zcTs := 5000 })).map State.snapshots
      = some [⟨5000, [0, 6, 0, 0, 0], false⟩] := by
  decide

theorem test_reset :
    nextState (exec (.reset 0b001000#29) (lit8 9 [8, 8, 8, 8, 8])) = some { reset8 with prevIn := 0b001000#29 } ∧
    nextState (exec (.reset 0b000000#29) (State.powerOn Params.default)) = some State.reset := by
  decide

/-! ## Trace syntax (30_encoding.md R57, R58) -/

theorem test_trace_read :
    readLine t8 (line "edge in=0b000100 t=7500 ; string 1") = some [.edge 0b000100#29 7500#32] ∧
    readLine t8 (line "edge in=0b000001 t=0xFFFFFC18") = some [.edge 0b000001#29 0xFFFFFC18#32] ∧
    readLine t8 (line "reset in=0b001000") = some [.reset 0b001000#29] ∧
    readLine t8 (line "tick*3") = some [.tick, .tick, .tick] ∧
    readTrace t8 [line "config v=63", line "snap"] = some [0x400000000000003F#64, 0x6000000000000000#64] := by
  decide

theorem test_trace_refused :
    readLine t8 (line "edge in=0b00100 t=7500") = none ∧ readLine t8 (line "config v=65536") = none ∧
    readLine t8 (line "tick*0") = none ∧ readLine t8 (line "edge in=0b000100 t=4294967296") = none ∧
    printWord t8 0x2000000100001388#64 = some (line "edge in=0b000001 t=5000") := by
  decide

/-! ## Witnesses: states and operands that meet the hypotheses of each obligation -/

theorem witness_TickDrivesEveryString :
    live8.Inv ∧ live8.init = true ∧ live8.tableBuilt = true ∧ live8.strings[4]? = some (bright 0) :=
  ⟨live8_inv, rfl, rfl, rfl⟩

theorem witness_TicksCountAndPlaceOutputs :
    (lit8 0xFFFFFFFF [8, 0, 0, 0, 0]).Inv ∧ (lit8 0xFFFFFFFF [8, 0, 0, 0, 0]).init = true ∧
    (lit8 0xFFFFFFFF [8, 0, 0, 0, 0]).tableBuilt = true ∧ 1 ≤ 1 :=
  ⟨lit8_inv (by decide) rfl (by decide), rfl, rfl, le_rfl⟩

/-- The last position of the ramp, and `maxdc` itself, which is forced off. -/
theorem witness_ForcedOff :
    (lit8 3 [8, 0, 0, 0, 0]).Inv ∧ (lit8 3 [8, 0, 0, 0, 0]).init = true ∧
    (lit8 3 [8, 0, 0, 0, 0]).tableBuilt = true ∧
    (nextState (exec .tick (lit8 3 [8, 0, 0, 0, 0]))).map (fun t => (t.tick % 8, t.out[0]?)) = some (4, some false) ∧
    (nextState (exec .tick (lit8 2 [8, 0, 0, 0, 0]))).map (fun t => (t.tick % 8, t.out[0]?, t.out[1]?))
      = some (3, some true, some false) :=
  ⟨lit8_inv (by decide) rfl (by decide), rfl, rfl, by decide, by decide⟩

/-- Two states that differ in every other string and in the counter, at the same entry. -/
theorem witness_OutputLanesAreIndependent :
    ∃ t t', exec .tick (lit8 0 [6, 0, 0, 0, 0]) = .next t ∧ exec .tick (lit8 8 [6, 8, 8, 8, 8]) = .next t' ∧
      (lit8 0 [6, 0, 0, 0, 0]).strings[0]? = some (bright 6) ∧
      (lit8 8 [6, 8, 8, 8, 8]).strings[0]? = some (bright 6) ∧
      live8.table[t.tick % 8]? = live8.table[t'.tick % 8]? :=
  ⟨_, _, rfl, rfl, rfl, rfl, by decide⟩

theorem witness_DutyPerPeriod :
    (lit8 5 [0, 6, 8, 1, 0]).Inv ∧ (lit8 5 [0, 6, 8, 1, 0]).init = true ∧
    (lit8 5 [0, 6, 8, 1, 0]).tableBuilt = true ∧ t8.pwmN ∣ 2 ^ t8.tickW ∧
    (lit8 5 [0, 6, 8, 1, 0]).strings[1]? = some (bright 6) :=
  ⟨lit8_inv (by decide) rfl (by decide), rfl, rfl, by decide, rfl⟩

/-- Brightness 6 of 4 steps: position 2 is the last lit one, position 3 is dark. -/
theorem witness_LitPositionsAreOneRunFromZero :
    t8.Wf ∧ 1 ≤ 4 ∧ 4 ≤ t8.pwmN ∧ 6 ≤ t8.l ∧ (buildTable t8 4)[2]? = some 5 ∧ (buildTable t8 4)[3]? = some 7 ∧
    1 ≤ 8 ∧ 8 ≤ t8.pwmN := by
  decide

theorem witness_PositionAtTheCounterWrap :
    ((lit8 0xFFFFFFFF [0, 0, 0, 0, 0]).Inv ∧ (lit8 0xFFFFFFFF [0, 0, 0, 0, 0]).init = true ∧
      (lit8 0xFFFFFFFF [0, 0, 0, 0, 0]).tableBuilt = true ∧
      (lit8 0xFFFFFFFF [0, 0, 0, 0, 0]).tick = 2 ^ t8.tickW - 1) ∧
    ((lit8 0xFFFFFFFE [0, 0, 0, 0, 0]).Inv ∧ (lit8 0xFFFFFFFE [0, 0, 0, 0, 0]).tick ≠ 2 ^ t8.tickW - 1) ∧
    t8.pwmN ∣ 2 ^ t8.tickW :=
  ⟨⟨lit8_inv (by decide) rfl (by decide), rfl, rfl, by decide⟩,
    ⟨lit8_inv (by decide) rfl (by decide), by decide⟩, by decide⟩

theorem witness_OutputsRecurEveryPeriod :
    live8.Inv ∧ live8.init = true ∧ live8.tableBuilt = true ∧ 1 ≤ 1 ∧ live8.params.pwmN ∣ 2 ^ live8.params.tickW :=
  ⟨live8_inv, rfl, rfl, le_rfl, by decide⟩

/-- Each clamping clause at its boundary: 0, 1, `PWM_N` and `PWM_N + 1`. -/
theorem witness_ConfigClampsAndBuilds :
    reset8.params.Wf ∧ reset8.init = true ∧ t8.maxdcRaw (32#16).toNat < 1 ∧
    (1 ≤ t8.maxdcRaw (33#16).toNat ∧ t8.maxdcRaw (33#16).toNat ≤ (t8.pwmN : Int)) ∧
    (1 ≤ t8.maxdcRaw (90#16).toNat ∧ t8.maxdcRaw (90#16).toNat = (t8.pwmN : Int)) ∧
    (t8.pwmN : Int) < t8.maxdcRaw (100#16).toNat := by
  decide

theorem witness_ConfigWritesOnlyItsOwn : live8.init = true := rfl

theorem witness_ConfigForgetsEarlierState :
    reset8.params = (lit8 9 [1, 2, 3, 4, 5]).params ∧
    ∃ t t', exec (.config 90#16) reset8 = .next t ∧ exec (.config 90#16) (lit8 9 [1, 2, 3, 4, 5]) = .next t' :=
  ⟨rfl, _, _, rfl, rfl⟩

/-- A table in which every inner hypothesis is met: an index on each side of `maxdc`, and a run of equal
values. -/
theorem witness_TableIsMonotone :
    reset8.params.Wf ∧ reset8.init = true ∧
    (nextState (exec (.config 63#16) reset8)).map (fun t => (t.maxdc, t.table[3]?, t.table[4]?, t.table[7]?))
      = some (4, some 7, some 255, some 255) := by
  decide

theorem witness_DegenerateOutput :
    live8.Inv ∧ live8.init = true ∧ (32#16).toNat ≤ live8.params.vfDv ∧ live8.strings[0]? = some (bright 0) :=
  ⟨live8_inv, rfl, by decide, rfl⟩

/-- No change; and a change outside the window, which is accepted and still leaves the brightness. -/
theorem witness_EdgeDetectorHasNoFatalPath :
    live8.init = true ∧ live8.strings[0]? = some (bright 0) ∧ ¬ live8.ZcTaken 0b000000#29 0#32 ∧
    ¬ live8.EdgeTaken 0b000000#29 0#32 0 (bright 0) ∧ ¬ live8.ZcTaken 0b000010#29 10000#32 ∧
    live8.EdgeTaken 0b000010#29 10000#32 0 (bright 0) ∧
    ¬ elapsed live8.params (10000#32).toNat live8.zcTs < live8.params.winUs := by
  decide

theorem witness_EdgeRecordsSampleAndFrame : live8.init = true := rfl

/-- String 0 has an accepted edge of its own; string 1 has none. -/
theorem witness_EdgeAtZeroCrossing :
    coincident.params.Wf ∧ coincident.init = true ∧ coincident.ZcTaken 0b000001#29 15000#32 ∧
    coincident.strings[0]? = some ⟨6, 7000, true⟩ ∧ coincident.strings[1]? = some (bright 0) ∧
    coincident.EdgeTaken 0b000001#29 15000#32 0 ⟨6, 7000, true⟩ ∧
    ¬ coincident.EdgeTaken 0b000001#29 15000#32 1 (bright 0) ∧
    coincident.ZcTaken 0b000001#29 9001#32 ∧ ¬ coincident.ZcTaken 0b000001#29 9000#32 := by
  decide

/-- The last delay inside the window, the first outside it, and a debounced edge. -/
theorem witness_EdgeAwayFromZeroCrossing :
    late.init = true ∧ late.strings[0]? = some ⟨4, 9499, true⟩ ∧
    (¬ late.ZcTaken 0b000011#29 14999#32 ∧ late.EdgeTaken 0b000011#29 14999#32 0 ⟨4, 9499, true⟩ ∧
      elapsed late.params (14999#32).toNat late.zcTs < late.params.winUs) ∧
    (¬ late.ZcTaken 0b000011#29 15000#32 ∧ late.EdgeTaken 0b000011#29 15000#32 0 ⟨4, 9499, true⟩ ∧
      late.params.winUs ≤ elapsed late.params (15000#32).toNat late.zcTs) ∧
    (¬ late.EdgeTaken 0b000011#29 10498#32 0 ⟨4, 9499, true⟩ ∧
      late.EdgeTaken 0b000011#29 10499#32 0 ⟨4, 9499, true⟩) := by
  decide

theorem witness_EdgeLanesAreIndependent :
    ∃ t t', exec (.edge 0b000010#29 7500#32) live8 = .next t ∧
      exec (.edge 0b111110#29 7500#32) { live8 with tick := 9, prevIn := 0b001100#29 } = .next t' ∧
      live8.strings[0]? = ({ live8 with tick := 9, prevIn := 0b001100#29 } : State).strings[0]? ∧
      (0b000010#29).getLsbD 0 = (0b111110#29).getLsbD 0 ∧ live8.prevIn.getLsbD 0 = (0b001100#29).getLsbD 0 ∧
      (0b000010#29).getLsbD 1 = (0b111110#29).getLsbD 1 ∧ live8.prevIn.getLsbD 1 = (0b001100#29).getLsbD 1 :=
  ⟨_, _, rfl, rfl, by decide⟩

theorem witness_LevelMap :
    t8.Wf ∧ 999 ≤ 1000 ∧ (∀ e ∈ t8.bandEdgesUs, 999 < e) ∧ (∀ e ∈ t8.bandEdgesUs, e ≤ 7000) := by
  decide

theorem witness_ElapsedRecoversDistance : 0xFFFFFFFF < 2 ^ t8.tsW ∧ 0xFFFFFFFF < 2 ^ t8.tsW := by decide

/-- Both levels: string 2 held high and string 1 held low, over a CONFIG, a TICK, an EDGE and a SNAP. -/
theorem witness_HeldLineResolvesToBoundary :
    ∃ t, execAll [.config 63#16, .tick, .edge 0b001010#29 1000#32, .snap] { live8 with prevIn := 0b001000#29 }
        = .next t ∧
      live8.strings[2]? = some (bright 0) ∧ (bright 0).seen = false ∧
      (∀ e ∈ [Instr.config 63#16, .tick, .edge 0b001010#29 1000#32, .snap],
        keepsLine 2 ((0b001000#29).getLsbD 3) e = true ∧ keepsLine 1 ((0b001000#29).getLsbD 2) e = true) ∧
      (0b001011#29).getLsbD 3 = (0b001000#29).getLsbD 3 ∧ (0b001011#29).getLsbD 2 = (0b001000#29).getLsbD 2 ∧
      t.ZcTaken 0b001011#29 10000#32 :=
  ⟨_, rfl, by decide⟩

theorem witness_ZeroCrossingBouncesAreIgnored :
    live8.init = true ∧
    (∀ e ∈ [Instr.edge 0b000001#29 4000#32, .tick, .edge 0b000000#29 10#32],
      stampsSatisfy (fun now => decide (elapsed t8 now live8.zcTs ≤ t8.zcDebUs)) e = true) ∧
    ∃ t, execAll [.edge 0b000001#29 4000#32, .tick, .edge 0b000000#29 10#32] live8 = .next t :=
  ⟨rfl, by decide, _, rfl⟩

theorem witness_StringBouncesAreIgnored :
    live8.init = true ∧ live8.strings[0]? = some (bright 0) ∧
    (∀ e ∈ [Instr.edge 0b000010#29 999#32, .snap, .edge 0b000000#29 10#32],
      stampsSatisfy (fun now => decide (elapsed t8 now (bright 0).lastEdgeTime < t8.strDebUs)) e = true) ∧
    ∃ t, execAll [.edge 0b000010#29 999#32, .snap, .edge 0b000000#29 10#32] live8 = .next t :=
  ⟨rfl, rfl, by decide, _, rfl⟩

theorem witness_StartUpWindowRejects :
    live8.params.Wf ∧ stampFits t8 999#32 = true ∧ (999#32).toNat ≤ t8.zcDebUs ∧ (999#32).toNat < t8.strDebUs := by
  decide

theorem witness_SnapReturnsTheTuple : live8.init = true ∧ live8.strings[4]? = some (bright 0) := by decide

theorem witness_SnapsCanBeRemoved :
    live8.init = true ∧ [Instr.snap, .tick, .snap].filter notSnap = [.tick] := by decide

theorem witness_ResetGivesEveryElement : 4 < live8.params.nstr := by decide

/-- A run with a CONFIG and a TICK that completes with everything low. -/
theorem witness_OutputsStayLowUntilAnEdge :
    live8.Inv ∧
    (∀ i ∈ [Instr.config 90#16, .tick, .snap, .reset 0b000100#29],
      i.wellFormed live8.params = true ∧ notEdge i = true) ∧
    (∀ r ∈ live8.strings, r.brightness = 0) ∧ (∀ b ∈ live8.out, b = false) ∧
    ∃ t, execAll [.config 90#16, .tick, .snap, .reset 0b000100#29] live8 = .next t :=
  ⟨live8_inv, by decide, by decide, by decide, _, rfl⟩

theorem witness_NotResetFaults : (State.powerOn t8).init = false := rfl

theorem witness_TickFaultsWhileTableUnbuilt : State.reset.init = true ∧ State.reset.tableBuilt = false :=
  ⟨rfl, rfl⟩

/-- Runs that keep the boot order and runs that break it, from either side. -/
theorem witness_RunCompletesIffBootOrder :
    live8.Inv ∧ (∀ i ∈ [Instr.reset 1#29, .snap, .config 63#16, .tick], i.wellFormed t8 = true) ∧
    bootOrder true true [.reset 1#29, .snap, .config 63#16, .tick] = true ∧
    bootOrder true true [.reset 1#29, .tick] = false ∧ bootOrder false false [.snap] = false ∧
    bootOrder false false [.reset 1#29, .config 63#16, .tick] = true :=
  ⟨live8_inv, by decide⟩

theorem witness_ReservedWordsAreRefused :
    ({ State.powerOn t8 with events := [0xA000000000000001#64] } : State).params.Wf ∧
    5 ≤ ((0xA000000000000001#64).extractLsb' 61 3).toNat := by
  decide

theorem witness_MalformedWordsAreRefused :
    live8.params.Wf ∧ ((0x0000000000000001#64).extractLsb' 61 3).toNat < 5 ∧
    ∀ i : Instr, i.wellFormed live8.params = true → encode i ≠ 0x0000000000000001#64 := by
  refine ⟨t8_wf, by decide, ?_⟩
  intro i _ h
  cases i with
  | tick => exact absurd h (by decide)
  | edge inp now => have e := Laws.OpField.edge inp now; rw [Laws.OpField.Statement, h] at e; exact absurd e (by simp [Instr.op])
  | config v => have e := Laws.OpField.config v; rw [Laws.OpField.Statement, h] at e; exact absurd e (by simp [Instr.op])
  | snap => exact absurd h (by decide)
  | reset inp => have e := Laws.OpField.reset inp; rw [Laws.OpField.Statement, h] at e; exact absurd e (by simp [Instr.op])

/-- The first and the last bit that the EDGE format fixes at 0, and a word with no such bit set. -/
theorem witness_WordsWithAFixedZeroSetAreRefused :
    live8.params.Wf ∧ live8.params.vW = 16 ∧ ((0x2000004000000000#64).extractLsb' 61 3).toNat < 5 ∧
    (FixedZero t8 ((0x2000004000000000#64).extractLsb' 61 3) 38 ∧ (0x2000004000000000#64).getLsbD 38 = true) ∧
    (FixedZero t8 ((0x3000000000000000#64).extractLsb' 61 3) 60 ∧ (0x3000000000000000#64).getLsbD 60 = true) ∧
    ¬ FixedZero t8 ((0x2000002000000000#64).extractLsb' 61 3) 37 ∧
    ¬ FixedZero t8 ((0x2000002000000000#64).extractLsb' 61 3) 61 := by
  refine ⟨t8_wf, rfl, ?_⟩
  unfold FixedZero
  decide

/-- A parameter set that breaks R6, one for each of the model's own conditions, and one that meets all. -/
theorem witness_BrokenParametersAreRefused :
    ¬ MeetsR6 { t8 with nstr := 29 } ∧ ({ t8 with atomicW := 7 } : Params).atomicW < t8.bW ∧
    ¬ CanonicalRaw { t8 with maxdcRawAt := [(63, 4), (20, -3)] } ∧
    MeetsR6 t8 ∧ t8.bW ≤ t8.atomicW ∧ CanonicalRaw t8 := by
  refine ⟨fun h => absurd h.nstr.2 (by decide), by decide, fun h => absurd h.rising (by decide),
    ⟨by decide, by decide, by decide, by decide, by decide, by decide, by decide,
      fun v hv => t8_wf.maxdcRaw_nonpos hv, by decide⟩, by decide, ⟨by decide, by decide⟩⟩

theorem witness_DecodeOfEncode : t8.Wf ∧ Instr.wellFormed t8 (.edge 0b111111#29 0xFFFFFFFF#32) = true := by
  decide

theorem witness_EncodeOfDecode : t8.Wf ∧ decode t8 0x2000003FFFFFFFFF#64 = .event (.edge 0b111111#29 0xFFFFFFFF#32) := by
  decide

theorem witness_TraceLineRoundTrip : t8.Wf ∧ Instr.wellFormed t8 (.config 65535#16) = true := by decide

theorem witness_TickPseudoEventExpands : 1 ≤ 1 ∧ 9999999999 < 10 ^ 10 := by decide

/-- A waiting word that spells an event, and none waiting. -/
theorem witness_StepRunsTheDecodedEvent :
    live8.params.Wf ∧ ({ live8 with events := [0x6000000000000000#64] } : State).events = 0x6000000000000000#64 :: [] ∧
    decode live8.params 0x6000000000000000#64 = .event .snap ∧ live8.events = [] := by
  decide

/-- A step with a word waiting, and one with none. -/
theorem witness_StepTakesExactlyOneEvent :
    (∃ t, step { live8 with events := [0#64, 0#64] } = .next t) ∧ (∃ t, step live8 = .next t) ∧
    live8.events = [] :=
  ⟨⟨_, rfl⟩, ⟨_, rfl⟩, rfl⟩

theorem witness_OnlyTheOwnerWrites : ∃ t, exec .tick live8 = .next t ∧ ∀ inp, Instr.tick ≠ .reset inp :=
  ⟨_, rfl, by intro inp h; cases h⟩

theorem witness_OutputChangesOnlyAtTick :
    ∃ t, exec (.edge 0b000010#29 5000#32) live8 = .next t ∧ Instr.edge 0b000010#29 5000#32 ≠ .tick :=
  ⟨_, rfl, by decide⟩

theorem witness_StepKeepsTheInvariant : live8.Inv ∧ ∃ t, step (live8.withFetchWord 64 0) = .next t :=
  ⟨live8_inv, _, rfl⟩

/-- A state before the first RESET with a word waiting. -/
theorem witness_ResetMeetsTheInvariant :
    ({ live8 with init := false, events := [0#64] } : State).init = false ∧
    ({ live8 with init := false, events := [0#64] } : State).params.Wf :=
  ⟨rfl, t8_wf⟩

theorem witness_TableStandsUntilTheNextConfig :
    ∃ t u, exec (.config 90#16) live8 = .next t ∧ execAll [.tick, .edge 0b000001#29 5000#32, .snap] t = .next u ∧
      ∀ i ∈ [Instr.tick, .edge 0b000001#29 5000#32, .snap], (∀ v, i ≠ .config v) ∧ ∀ inp, i ≠ .reset inp := by
  refine ⟨_, _, rfl, rfl, ?_⟩
  simp

end Sys2Proof.Tests
end

/-! SUPPORT. What the decoder makes of a word, in terms of the word's bits (30_encoding.md R47 to R55): its
`op` says which bits must be 0, and the word spells an event exactly when those bits are 0. -/

namespace Sys2Proof

/-! ## Fields as bits -/

theorem field_testBit (w : EventWord) (hi lo i : Nat) :
    (field w hi lo).testBit i = (decide (i < hi + 1 - lo) && w.getLsbD (i + lo)) := by
  simp [field, Nat.testBit_mod_two_pow, Nat.testBit_div_two_pow, BitVec.getLsbD]

theorem clear_iff_bits (w : EventWord) (hi lo : Nat) :
    clear w hi lo = true ↔ ∀ j, lo ≤ j ∧ j ≤ hi → w.getLsbD j = false := by
  rw [clear_iff]
  constructor
  · intro h j ⟨hlo, hhi⟩
    have hbit := field_testBit w hi lo (j - lo)
    rw [h, Nat.zero_testBit, Nat.sub_add_cancel hlo, decide_eq_true (by omega), Bool.true_and] at hbit
    exact hbit.symm
  · intro h
    refine Nat.eq_of_testBit_eq fun i => ?_
    rw [field_testBit, Nat.zero_testBit]
    by_cases hi' : i < hi + 1 - lo
    · rw [h (i + lo) (by omega), Bool.and_false]
    · rw [decide_eq_false hi', Bool.false_and]

theorem clear_and_clear_iff_bits (w : EventWord) (hi lo hi' lo' : Nat) :
    (clear w hi lo && clear w hi' lo') = true ↔
      ∀ j, (lo ≤ j ∧ j ≤ hi) ∨ (lo' ≤ j ∧ j ≤ hi') → w.getLsbD j = false := by
  simp only [Bool.and_eq_true, clear_iff_bits, or_imp, forall_and]

/-- Bits [63:61], which the decoder reads as a number, are the word's `op`. -/
theorem field_op (w : EventWord) : field w 63 61 = (w.extractLsb' 61 3).toNat := by
  rw [BitVec.extractLsb'_toNat, Nat.shiftRight_eq_div_pow]
  rfl

theorem op_of_field {w : EventWord} {n : Nat} (h : field w 63 61 = n) :
    w.extractLsb' 61 3 = BitVec.ofNat 3 n := by
  rw [← h, field_op, BitVec.ofNat_toNat, BitVec.setWidth_eq]

/-! ## What a word decodes to -/

/-- The bits the decoder asks to be 0: those the format fixes at 0 (R48 to R53) and, for `V_W < 16`, bits
[15:V_W] of CONFIG (log 8). -/
def MustBeZero (p : Params) (op : BitVec 3) (j : Nat) : Prop :=
  Machine.FixedZero p op j ∨ (op = 0b010#3 ∧ p.vW ≤ j ∧ j ≤ 15)

/-- At the setting width of R51 the decoder asks no more than the formats do. -/
theorem mustBeZero_iff_fixedZero {p : Params} (h : 16 ≤ p.vW) (op : BitVec 3) (j : Nat) :
    MustBeZero p op j ↔ Machine.FixedZero p op j :=
  or_iff_left (by omega)

theorem eventIf_eq_event {b : Bool} {i j : Instr} : eventIf b i = .event j ↔ b = true ∧ i = j := by
  cases b <;> simp [eventIf]

theorem eventIf_eq_malformedEvent {b : Bool} {i : Instr} : eventIf b i = .malformedEvent ↔ b = false := by
  cases b <;> simp [eventIf]

/-- What the decoder can do: a reserved `op` is refused; a defined `op` has one event, guarded by the bits
that must be 0. -/
theorem decode_cases (p : Params) (w : EventWord) :
    (5 ≤ (w.extractLsb' 61 3).toNat ∧ decode p w = .reservedEvent) ∨
    ((w.extractLsb' 61 3).toNat < 5 ∧ ∃ b i, decode p w = eventIf b i ∧
      (b = true ↔ ∀ j, MustBeZero p (w.extractLsb' 61 3) j → w.getLsbD j = false)) := by
  rw [← field_op]
  unfold decode
  split
  case h_1 h | h_4 h =>
    refine .inr ⟨by omega, _, _, rfl, ?_⟩
    rw [op_of_field h, clear_iff_bits]
    exact forall_congr' fun j => imp_congr_left (by simp [MustBeZero, Machine.FixedZero])
  case h_2 h | h_3 h | h_5 h =>
    refine .inr ⟨by omega, _, _, rfl, ?_⟩
    rw [op_of_field h, clear_and_clear_iff_bits]
    exact forall_congr' fun j => imp_congr_left (by simp [MustBeZero, Machine.FixedZero]; omega)
  case h_6 h0 h1 h2 h3 h4 =>
    simp only [imp_false] at h0 h1 h2 h3 h4
    exact .inl ⟨by omega, rfl⟩

theorem decode_of_reserved_op {p : Params} {w : EventWord} (h : 5 ≤ (w.extractLsb' 61 3).toNat) :
    decode p w = .reservedEvent := by
  obtain ⟨-, hd⟩ | ⟨hop, -⟩ := decode_cases p w
  · exact hd
  · omega

theorem exists_decode_eq_event_iff {p : Params} {w : EventWord} :
    (∃ i, decode p w = .event i) ↔ (w.extractLsb' 61 3).toNat < 5 ∧
      ∀ j, MustBeZero p (w.extractLsb' 61 3) j → w.getLsbD j = false := by
  obtain ⟨hop, hd⟩ | ⟨hop, b, i, hd, hb⟩ := decode_cases p w
  · simp only [hd, reduceCtorEq, exists_false, Nat.not_lt.2 hop, false_and]
  · simp only [hd, eventIf_eq_event, exists_and_left, exists_eq', and_true, hb, hop, true_and]

theorem decode_eq_malformedEvent_iff {p : Params} {w : EventWord} :
    decode p w = .malformedEvent ↔ (w.extractLsb' 61 3).toNat < 5 ∧
      ∃ j, MustBeZero p (w.extractLsb' 61 3) j ∧ w.getLsbD j = true := by
  obtain ⟨hop, hd⟩ | ⟨hop, b, i, hd, hb⟩ := decode_cases p w
  · simp only [hd, reduceCtorEq, Nat.not_lt.2 hop, false_and]
  · simp only [hd, eventIf_eq_malformedEvent, ← Bool.not_eq_true, hb, hop, true_and, not_forall,
      not_not, exists_prop]

end Sys2Proof

/-! SUPPORT. The opcode table of 30_encoding.md section 2 against the formats: a row's mask covers `op` and the
bits that the row's format fixes at 0 at the defaults (`NSTR = 5`), so a word matches the row exactly when it
has the row's `op` and those bits 0. -/

namespace Sys2Proof

/-- Matching under a mask is agreement on the bits of the mask. -/
theorem and_eq_iff_bits {n : Nat} {w mask m : BitVec n} (hm : m &&& mask = m) :
    w &&& mask = m ↔ ∀ j < n, mask.getLsbD j = true → w.getLsbD j = m.getLsbD j := by
  have hbit (v : BitVec n) {j : Nat} (hj : mask.getLsbD j = true) : (v &&& mask).getLsbD j = v.getLsbD j := by
    rw [BitVec.getLsbD_and, hj, Bool.and_true]
  constructor
  · intro h j _ hj
    rw [← h, hbit w hj]
  · intro h
    refine BitVec.eq_of_getLsbD_eq fun j hlt => ?_
    rw [← hm]
    cases hj : mask.getLsbD j with
    | true => rw [hbit w hj, hbit m hj, h j hlt hj]
    | false => rw [BitVec.getLsbD_and, BitVec.getLsbD_and, hj, Bool.and_false, Bool.and_false]

theorem op_eq_iff_bits (w v : EventWord) :
    w.extractLsb' 61 3 = v.extractLsb' 61 3 ↔ ∀ j < 64, 61 ≤ j → w.getLsbD j = v.getLsbD j := by
  have hbit (u : EventWord) {i : Nat} (hi : i < 3) :
      (u.extractLsb' 61 3).getLsbD i = u.getLsbD (61 + i) := by
    rw [BitVec.getLsbD_extractLsb', decide_eq_true hi, Bool.true_and]
  constructor
  · intro h j hlt hj
    obtain ⟨i, rfl⟩ := Nat.exists_eq_add_of_le hj
    rw [← hbit w (by omega), ← hbit v (by omega), h]
  · intro h
    refine BitVec.eq_of_getLsbD_eq fun i hi => ?_
    rw [hbit w hi, hbit v hi, h (61 + i) (by omega) (by omega)]

/-- The table with its runs of ones written as shifts. -/
theorem opcodeTable_eq_shifts : opcodeTable =
    [(0b000#3 ++ 0#61, BitVec.allOnes 64),
     (0b001#3 ++ 0#61, BitVec.allOnes 64 <<< 38),
     (0b010#3 ++ 0#61, BitVec.allOnes 64 <<< 16),
     (0b011#3 ++ 0#61, BitVec.allOnes 64),
     (0b100#3 ++ 0#61, BitVec.allOnes 64 <<< 38 ||| BitVec.allOnes 64 >>> 32)] := by
  decide

/-- A row's mask covers `op` and the bits its format fixes at 0. -/
theorem opcodeTable_mask_bit : ∀ row ∈ opcodeTable, ∀ j < 64, (row.2.getLsbD j = true ↔
    61 ≤ j ∨ Machine.FixedZero Params.default (row.1.extractLsb' 61 3) j) := by
  simp only [opcodeTable_eq_shifts, List.forall_mem_cons, BitVec.extractLsb'_append_eq_left,
    BitVec.getLsbD_or, BitVec.getLsbD_shiftLeft, BitVec.getLsbD_ushiftRight, BitVec.getLsbD_allOnes]
  refine ⟨?_, ?_, ?_, ?_, ?_, by simp⟩ <;> intro j hj <;>
    simp [Machine.FixedZero, Params.default] <;> omega

/-- A row's match is its `op` above zeros. -/
theorem opcodeTable_match_bit : ∀ row ∈ opcodeTable, ∀ j < 61, row.1.getLsbD j = false := by
  simp only [opcodeTable_eq_shifts, List.forall_mem_cons, BitVec.getLsbD_append]
  simp +contextual

theorem opcodeTable_match_and_mask : ∀ row ∈ opcodeTable, row.1 &&& row.2 = row.1 := by
  simp [opcodeTable]

/-- The rows are those of the defined ops (R47). -/
theorem opcodeTable_ops : ∀ op : BitVec 3,
    (∃ row ∈ opcodeTable, row.1.extractLsb' 61 3 = op) ↔ op.toNat < 5 := by
  decide

theorem matches_row_iff {row : EventWord × EventWord} (hrow : row ∈ opcodeTable) (w : EventWord) :
    w &&& row.2 = row.1 ↔ row.1.extractLsb' 61 3 = w.extractLsb' 61 3 ∧
      ∀ j, Machine.FixedZero Params.default (w.extractLsb' 61 3) j → w.getLsbD j = false := by
  rw [and_eq_iff_bits (opcodeTable_match_and_mask row hrow), eq_comm (a := row.1.extractLsb' 61 3)]
  constructor
  · intro h
    have hop : w.extractLsb' 61 3 = row.1.extractLsb' 61 3 :=
      (op_eq_iff_bits w row.1).2 fun j hlt hj => h j hlt ((opcodeTable_mask_bit row hrow j hlt).2 (.inl hj))
    refine ⟨hop, fun j hj => ?_⟩
    have hle : j ≤ 60 := hj.1
    rw [h j (by omega) ((opcodeTable_mask_bit row hrow j (by omega)).2 (.inr (hop ▸ hj))),
      opcodeTable_match_bit row hrow j (by omega)]
  · rintro ⟨hop, hzero⟩ j hlt hmask
    obtain hj | hj := (opcodeTable_mask_bit row hrow j hlt).1 hmask
    · exact (op_eq_iff_bits w row.1).1 hop j hlt hj
    · have hle : j ≤ 60 := hj.1
      rw [hzero j (hop ▸ hj), opcodeTable_match_bit row hrow j (by omega)]

/-- A word matches a row exactly when its `op` is defined and every bit its format fixes at 0 is 0. -/
theorem exists_matches_row_iff (w : EventWord) :
    (∃ row ∈ opcodeTable, w &&& row.2 = row.1) ↔ (w.extractLsb' 61 3).toNat < 5 ∧
      ∀ j, Machine.FixedZero Params.default (w.extractLsb' 61 3) j → w.getLsbD j = false := by
  rw [← opcodeTable_ops]
  constructor
  · rintro ⟨row, hrow, h⟩
    obtain ⟨hop, hzero⟩ := (matches_row_iff hrow w).1 h
    exact ⟨⟨row, hrow, hop⟩, hzero⟩
  · rintro ⟨⟨row, hrow, hop⟩, hzero⟩
    exact ⟨row, hrow, (matches_row_iff hrow w).2 ⟨hop, hzero⟩⟩

/-- At the defaults the words that decode are those that match a row of the table (R55). -/
theorem decodes_iff_matches_row (w : EventWord) :
    (∃ i, decode Params.default w = .event i) ↔ ∃ row ∈ opcodeTable, w &&& row.2 = row.1 := by
  simp only [exists_decode_eq_event_iff, exists_matches_row_iff,
    mustBeZero_iff_fixedZero (p := Params.default) (Nat.le_refl 16)]

end Sys2Proof

/-! SUPPORT. When a step refuses a word, and the two statements about it (30_encoding.md R54, R55). -/

namespace Sys2Proof.Machine

/-- A step with a word waiting answers for what the word decodes to. -/
theorem step_of_word {s : State} {w : EventWord} {rest : List EventWord} (hwf : s.params.Wf)
    (hev : s.events = w :: rest) :
    step s = onDecoded (decode s.params w) fun i => exec i { s with events := rest } := by
  simp only [step, if_pos hwf, takeEvent, hev]

theorem ifReset_ne_refused {s : State} {r : Result} {c : Refusal} (h : r ≠ .refused c) :
    ifReset s r ≠ .refused c := by
  cases hi : s.init with
  | true => rwa [ifReset_of_init hi]
  | false => simp [ifReset_of_not_init hi]

theorem withEntry_ne_refused {s : State} {pos : Nat} {k : Nat → Result} {c : Refusal}
    (h : ∀ thr, k thr ≠ .refused c) : withEntry s pos k ≠ .refused c := by
  unfold withEntry
  split
  · split
    · exact h _
    · nofun
  · nofun

/-- An event ends in a state or a model fault: a refusal is only ever of a word or of the parameters. -/
theorem exec_ne_refused (i : Instr) (s : State) (c : Refusal) : exec i s ≠ .refused c := by
  cases i with
  | tick => exact ifReset_ne_refused (withEntry_ne_refused nofun)
  | edge inp now => exact ifReset_ne_refused nofun
  | config v => exact ifReset_ne_refused nofun
  | snap => exact ifReset_ne_refused nofun
  | reset inp => nofun

theorem step_eq_malformedEvent_iff {s : State} {w : EventWord} {rest : List EventWord} (hwf : s.params.Wf)
    (hev : s.events = w :: rest) :
    step s = .refused .malformedEvent ↔ decode s.params w = .malformedEvent := by
  rw [step_of_word hwf hev]
  cases decode s.params w with
  | event i => simp [onDecoded, exec_ne_refused]
  | reservedEvent => simp [onDecoded]
  | malformedEvent => simp [onDecoded]

/-- A word is an event that the step runs, or it is refused. -/
theorem step_runs_or_refuses {s : State} {w : EventWord} {rest : List EventWord} (hwf : s.params.Wf)
    (hev : s.events = w :: rest) :
    (∃ i, decode s.params w = .event i ∧ step s = exec i { s with events := rest }) ∨
      step s = .refused .reservedEvent ∨ step s = .refused .malformedEvent := by
  rw [step_of_word hwf hev]
  cases decode s.params w with
  | event i => exact .inl ⟨i, rfl, rfl⟩
  | reservedEvent => exact .inr (.inl rfl)
  | malformedEvent => exact .inr (.inr rfl)

end Sys2Proof.Machine

section

open Sys2Proof Sys2Proof.Machine

/-- Settles O33: a reserved `op` decodes to the refusal, which the step answers before it reads the state. -/
theorem reservedWordsAreRefused : Obligations.ReservedWordsAreRefused := by
  intro s w rest hwf hev hop
  rw [step_of_word hwf hev, decode_of_reserved_op hop]
  rfl

/-- Settles O48, from the bits the decoder asks to be 0, which at `V_W = 16` are those of the formats. -/
theorem wordsWithAFixedZeroSetAreRefused : Obligations.WordsWithAFixedZeroSetAreRefused := by
  refine ⟨fun s w rest hwf hv hev => ⟨fun hop => ?_, step_runs_or_refuses hwf hev⟩, decodes_iff_matches_row⟩
  rw [step_eq_malformedEvent_iff hwf hev, decode_eq_malformedEvent_iff]
  simp only [hop, true_and, mustBeZero_iff_fixedZero hv.ge]

end

/-! SUPPORT. A TICK in a state of the invariant that has a table (40_time_base.md R59 to R62): the table has an
entry for every cycle position, so the TICK completes. -/

namespace Sys2Proof.Machine

/-- The stored table holds the builder's entry at every cycle position. -/
theorem State.Inv.table_getElem? {s : State} (hs : s.Inv) (hi : s.init = true) (hb : s.tableBuilt = true)
    {pos : Nat} (hpos : pos < s.params.pwmN) : s.table[pos]? = some (tableEntry s.params s.maxdc pos) := by
  obtain ⟨-, htable, -⟩ := (hs.live hi).built hb
  rw [htable, buildTable_getElem? hpos]

/-- A TICK of a state with a table drives every string with the entry of the position after the increment. -/
theorem exec_tick_of_inv {s : State} (hs : s.Inv) (hi : s.init = true) (hb : s.tableBuilt = true) :
    exec .tick s = .next { s with
      tick := nextTick s.params s.tick
      out := driveAll s.strings
        (tableEntry s.params s.maxdc (cyclePos s.params (nextTick s.params s.tick))) } :=
  execTick_eq_next.2 ⟨hi, hb, _, hs.table_getElem? hi hb (cyclePos_lt hs.params_wf _), rfl⟩

end Sys2Proof.Machine

section

open Sys2Proof Sys2Proof.Machine

/-- Settles O1: the invariant's table has an entry at the new position, and every output is its string's
comparison with that entry. -/
theorem tickDrivesEveryString : Obligations.TickDrivesEveryString := by
  intro s hs hi hb
  have hentry := hs.table_getElem? hi hb (cyclePos_lt hs.params_wf (nextTick s.params s.tick))
  have hlen := (hs.live hi).strings_length
  exact ⟨_, _, hentry, exec_tick_of_inv hs hi hb, rfl, (driveAll_length _ _).trans hlen,
    fun _ _ hk => driveAll_getElem? hk _, rfl⟩

end

/-! SUPPORT. The output latch (41_output_driver.md R64 to R67): what a completed TICK writes to it, string by
string, and which events leave it. -/

namespace Sys2Proof.Machine

/-- A completed TICK met an entry at its position, and every string's output is its comparison with it. -/
theorem exec_tick_out {s t : State} {k : Nat} {r : StringRec} (h : exec .tick s = .next t)
    (hk : s.strings[k]? = some r) :
    ∃ thr, s.table[t.tick % s.params.pwmN]? = some thr ∧ t.out[k]? = some (decide (thr ≤ r.brightness)) := by
  obtain ⟨-, -, thr, hentry, rfl⟩ := execTick_eq_next.1 h
  exact ⟨thr, hentry, driveAll_getElem? hk thr⟩

theorem exec_edge_observed {s t : State} {inp : Lines} {now : Stamp} (h : exec (.edge inp now) s = .next t) :
    t.observed = s.observed := by
  rw [execEdge_frame h]
  rfl

theorem exec_config_observed {s t : State} {v : Setting} (h : exec (.config v) s = .next t) :
    t.observed = s.observed := by
  obtain ⟨-, rfl⟩ := execConfig_eq_next.1 h
  rfl

theorem exec_snap_out {s t : State} (h : exec .snap s = .next t) : t.out = s.out := by
  obtain ⟨-, rfl⟩ := execSnap_eq_next.1 h
  rfl

theorem exec_reset_out {s t : State} {inp : Lines} (h : exec (.reset inp) s = .next t) :
    t.out = List.replicate s.params.nstr false := by
  cases h
  rfl

/-- Equal observations hold equal output latches. -/
theorem out_eq_of_observed_eq {s t : State} (h : t.observed = s.observed) : t.out = s.out :=
  congrArg Prod.fst h

end Sys2Proof.Machine

section

open Sys2Proof Sys2Proof.Machine

/-- Settles O4: each TICK's output is the comparison of the brightness with the entry it met, and the two
TICKs met the same entry. -/
theorem outputLanesAreIndependent : Obligations.OutputLanesAreIndependent := by
  intro s s' t t' k r r' ht ht' hr hr' hbright htable
  obtain ⟨thr, hthr, hout⟩ := exec_tick_out ht hr
  obtain ⟨thr', hthr', hout'⟩ := exec_tick_out ht' hr'
  have hentry : thr = thr' := Option.some.inj (hthr.symm.trans (htable.trans hthr'))
  rw [hout, hout', hentry, hbright]
  exact ⟨rfl, rfl⟩

/-- Settles O44, event by event: EDGE and CONFIG leave all that is observed, SNAP leaves the latch, and RESET
clears it. -/
theorem outputChangesOnlyAtTick : Obligations.OutputChangesOnlyAtTick := by
  intro i s t h htick
  cases i with
  | tick => exact absurd rfl htick
  | edge inp now =>
    have hobs := exec_edge_observed h
    exact ⟨.inl (out_eq_of_observed_eq hobs), fun _ => hobs⟩
  | config v =>
    have hobs := exec_config_observed h
    exact ⟨.inl (out_eq_of_observed_eq hobs), fun _ => hobs⟩
  | snap => exact ⟨.inl (exec_snap_out h), by simp⟩
  | reset inp => exact ⟨.inr ⟨⟨inp, rfl⟩, exec_reset_out h⟩, by simp⟩

end

/-! SUPPORT. CONFIG in a state after a RESET (42_table_builder.md R71 to R75, R78): the one state it answers,
the two values of its flag, and the built table position by position. -/

namespace Sys2Proof.Machine

/-- After a RESET a CONFIG completes, and it is an update of its own five elements. -/
theorem exec_config_of_init {s : State} (hi : s.init = true) (v : Setting) :
    exec (.config v) s = .next { s with
      voltage := v.toNat
      maxdc := clampMaxdc s.params (s.params.maxdcRaw v.toNat)
      cfgDegenerate := degenerate (s.params.maxdcRaw v.toNat)
      table := buildTable s.params (clampMaxdc s.params (s.params.maxdcRaw v.toNat))
      tableBuilt := true } :=
  execConfig_eq_next.2 ⟨hi, rfl⟩

theorem degenerate_eq_true_iff {raw : Int} : degenerate raw = true ↔ raw < 1 := decide_eq_true_iff

theorem degenerate_eq_false_iff {raw : Int} : degenerate raw = false ↔ 1 ≤ raw :=
  decide_eq_false_iff_not.trans Int.not_lt

/-- Below the step count the built table holds the ramp (R74). -/
theorem buildTable_ramp {p : Params} {m i : Nat} (hm : m ≤ p.pwmN) (hi : i < m) :
    (buildTable p m)[i]? = some (i * p.l / m + 1) := by
  rw [buildTable_getElem? (hi.trans_le hm), tableEntry_ramp hi]

/-- From the step count on the built table holds the sentinel (R75). -/
theorem buildTable_sentinel {p : Params} {m i : Nat} (hm : m ≤ i) (hi : i < p.pwmN) :
    (buildTable p m)[i]? = some p.sentinel := by
  rw [buildTable_getElem? hi, tableEntry_sentinel hm]

end Sys2Proof.Machine

section

open Sys2Proof Sys2Proof.Machine

/-- Settles O9: the three ranges of `MAXDC_RAW` are the three branches of the clamp, and the clamped step
count parts the table into ramp and sentinels. -/
theorem configClampsAndBuilds : Obligations.ConfigClampsAndBuilds := by
  intro s v hwf hi
  have hle := clampMaxdc_le hwf (s.params.maxdcRaw v.toNat)
  refine ⟨_, exec_config_of_init hi v, rfl, rfl, ?below, ?above, ?within, ⟨clampMaxdc_pos hwf _, hle⟩,
    buildTable_length _, ?ramp, ?sentinels⟩
  case below => exact fun hlt => ⟨clampMaxdc_of_lt hlt, degenerate_eq_true_iff.2 hlt⟩
  case above =>
    intro hgt
    have hpos : 1 ≤ s.params.maxdcRaw v.toNat := by
      have := hwf.pwmN_pos
      omega
    exact ⟨clampMaxdc_of_gt hpos hgt, degenerate_eq_false_iff.2 hpos⟩
  case within => exact fun hpos hmem => ⟨clampMaxdc_of_mem hpos hmem, degenerate_eq_false_iff.2 hpos⟩
  case ramp => exact fun i him => ⟨buildTable_ramp hle him, tableEntry_ramp him ▸ tableEntry_ramp_le hwf him⟩
  case sentinels => exact fun i => buildTable_sentinel

/-- Settles O10: the completed CONFIG is an update of its own five elements, so every other field stands. -/
theorem configWritesOnlyItsOwn : Obligations.ConfigWritesOnlyItsOwn := by
  intro s v hi
  exact ⟨_, exec_config_of_init hi v, rfl, rfl, rfl, rfl, rfl, rfl, rfl, rfl, rfl⟩

end

/-! SUPPORT. EDGE in a state after a RESET (43_edge_detector.md R81 to R97): it always completes, and what it
leaves of one string's record, by whether a zero-crossing and an edge of the string are accepted. -/

namespace Sys2Proof.Machine

theorem exec_edge_of_init {s : State} (hi : s.init = true) (inp : Lines) (now : Stamp) :
    ∃ t, exec (.edge inp now) s = .next t :=
  ⟨_, execEdge_eq_next.2 ⟨hi, rfl⟩⟩

/-- After a RESET every list of EDGEs completes, and the block is still reset at its end (R97). -/
theorem execAll_edges_of_init (es : List (Lines × Stamp)) : ∀ {s : State}, s.init = true →
    ∃ t, execAll (es.map fun e => .edge e.1 e.2) s = .next t ∧ t.init = true := by
  induction es with
  | nil => exact fun hi => ⟨_, execAll_nil _, hi⟩
  | cons e es ih =>
    intro s hi
    obtain ⟨t, ht⟩ := exec_edge_of_init hi e.1 e.2
    obtain ⟨u, hu, hui⟩ := ih (exec_init ht)
    exact ⟨u, (execAll_cons_of_next ht).trans hu, hui⟩

section Record

variable {s t : State} {inp : Lines} {now : Stamp} {k : Nat} {r : StringRec}

theorem stringAccepted_eq_false_iff :
    stringAccepted s.params (changeSet inp s.prevIn) now.toNat k r = false ↔ ¬ s.EdgeTaken inp now k r := by
  rw [← stringAccepted_iff, Bool.not_eq_true]

/-- Boundary resolution leaves the time of last edge, so it does not decide whether an edge is accepted. -/
theorem edgeTaken_clearSeen_resolve :
    s.EdgeTaken inp now k (clearSeen (resolve s.params inp k r)) ↔ s.EdgeTaken inp now k r := by
  rw [clearSeen_resolve]

/-- R88, R89: without an edge of its own the string is resolved at the zero-crossing, and its flag cleared. -/
theorem exec_edge_record_resolved (h : exec (.edge inp now) s = .next t) (hr : s.strings[k]? = some r)
    (hz : s.ZcTaken inp now) (he : ¬ s.EdgeTaken inp now k r) :
    t.strings[k]? = some (clearSeen (resolve s.params inp k r)) := by
  rw [(execEdge_record h hr).1 hz, measureEdge_of_not_accepted]
  exact stringAccepted_eq_false_iff.2 fun hc => he (edgeTaken_clearSeen_resolve.1 hc)

/-- R96: the reference is already `now` when the string's own edge is measured, so its delay is 0. -/
theorem exec_edge_record_coincident (h : exec (.edge inp now) s = .next t) (hr : s.strings[k]? = some r)
    (hwin : 0 < s.params.winUs) (hz : s.ZcTaken inp now) (he : s.EdgeTaken inp now k r) :
    t.strings[k]? = some { brightness := level s.params 0, lastEdgeTime := now.toNat, seen := true } := by
  have hacc := stringAccepted_iff.2 (edgeTaken_clearSeen_resolve.2 he)
  rw [(execEdge_record h hr).1 hz, measureEdge_in_window hacc (by rwa [elapsed_self]), elapsed_self]

/-- R91: with neither accepted the record stands. -/
theorem exec_edge_record_kept (h : exec (.edge inp now) s = .next t) (hr : s.strings[k]? = some r)
    (hz : ¬ s.ZcTaken inp now) (he : ¬ s.EdgeTaken inp now k r) : t.strings[k]? = some r := by
  rw [(execEdge_record h hr).2 hz, measureEdge_of_not_accepted (stringAccepted_eq_false_iff.2 he)]

/-- R92, R94: an accepted edge inside the window is measured from the last zero-crossing. -/
theorem exec_edge_record_measured (h : exec (.edge inp now) s = .next t) (hr : s.strings[k]? = some r)
    (hz : ¬ s.ZcTaken inp now) (he : s.EdgeTaken inp now k r)
    (hw : elapsed s.params now.toNat s.zcTs < s.params.winUs) :
    t.strings[k]? = some
      { brightness := level s.params (elapsed s.params now.toNat s.zcTs)
        lastEdgeTime := now.toNat
        seen := true } := by
  rw [(execEdge_record h hr).2 hz, measureEdge_in_window (stringAccepted_iff.2 he) hw]

/-- R95: an accepted edge outside the window writes at most its time. -/
theorem exec_edge_record_out_of_window (h : exec (.edge inp now) s = .next t) (hr : s.strings[k]? = some r)
    (hz : ¬ s.ZcTaken inp now) (he : s.EdgeTaken inp now k r)
    (hw : s.params.winUs ≤ elapsed s.params now.toNat s.zcTs) :
    t.strings[k]? = some
      { r with lastEdgeTime := if s.params.oowRecordsEdge = true then now.toNat else r.lastEdgeTime } := by
  rw [(execEdge_record h hr).2 hz, measureEdge_out_of_window (stringAccepted_iff.2 he) hw]

end Record

end Sys2Proof.Machine

section

open Sys2Proof Sys2Proof.Machine

/-- Settles O14: every EDGE of the list completes, and the next one leaves brightness and flag both where its
string has no accepted edge and where the accepted edge is out of the window. -/
theorem edgeDetectorHasNoFatalPath : Obligations.EdgeDetectorHasNoFatalPath := by
  intro s es hi
  obtain ⟨t, ht, hti⟩ := execAll_edges_of_init es hi
  refine ⟨t, ht, hti, fun inp now => ?_⟩
  obtain ⟨u, hu⟩ := exec_edge_of_init hti inp now
  refine ⟨u, hu, fun k r hr hz hin => ?_⟩
  by_cases he : t.EdgeTaken inp now k r
  · have hw : t.params.winUs ≤ elapsed t.params now.toNat t.zcTs := Nat.not_lt.1 fun hlt => hin ⟨he, hlt⟩
    exact ⟨_, exec_edge_record_out_of_window hu hr hz he hw, rfl, rfl⟩
  · exact ⟨r, exec_edge_record_kept hu hr hz he, rfl, rfl⟩

/-- Settles O16: the string part sees the records the zero-crossing part left and the new reference. -/
theorem edgeAtZeroCrossing : Obligations.EdgeAtZeroCrossing := by
  intro s inp now hwf hi hz
  obtain ⟨t, ht⟩ := exec_edge_of_init hi inp now
  refine ⟨t, ht, (execEdge_zcTs ht).1 hz, fun k r hr => ⟨?coincident, ?resolved⟩⟩
  case coincident => exact exec_edge_record_coincident ht hr hwf.win_pos hz
  case resolved =>
    intro he
    rw [exec_edge_record_resolved ht hr hz he, clearSeen_resolve]

/-- Settles O17: the zero-crossing part leaves all but the sample, and each clause is one branch of the string
part. -/
theorem edgeAwayFromZeroCrossing : Obligations.EdgeAwayFromZeroCrossing := by
  intro s inp now hi hz
  obtain ⟨t, ht⟩ := exec_edge_of_init hi inp now
  exact ⟨t, ht, (execEdge_zcTs ht).2 hz, fun k r hr => ⟨exec_edge_record_kept ht hr hz,
    exec_edge_record_measured ht hr hz, exec_edge_record_out_of_window ht hr hz⟩⟩

end

/-! SUPPORT. The delay-to-level map (43_edge_detector.md R93): its shape at well-formed parameters, and its
closed form at the defaults. -/

namespace Sys2Proof.Machine

variable {p : Params}

theorem band_eq_length_filter (p : Params) (dt : Nat) :
    band p dt = (p.bandEdgesUs.filter fun e => decide (e ≤ dt)).length :=
  List.countP_eq_length_filter

theorem band_of_lt_all {dt : Nat} (h : ∀ e ∈ p.bandEdgesUs, dt < e) : band p dt = 0 :=
  List.countP_eq_zero.2 fun e he hc => absurd (of_decide_eq_true hc) (Nat.not_le.2 (h e he))

theorem band_of_ge_all {dt : Nat} (h : ∀ e ∈ p.bandEdgesUs, e ≤ dt) : band p dt = p.bandEdgesUs.length :=
  List.countP_eq_length.2 fun e he => decide_eq_true (h e he)

/-- A longer delay has no higher level: its band is no lower, and the levels do not increase with the band. -/
theorem level_antitone (h : p.Wf) {dt dt' : Nat} (hle : dt ≤ dt') : level p dt' ≤ level p dt :=
  nonIncreasing_get h.levels_down (band_mono p hle) (level_some h dt) (level_some h dt')

theorem countP_range_lt (n m : Nat) : (List.range n).countP (fun i => decide (i < m)) = min m n := by
  induction n with
  | zero => simp
  | succ n ih =>
    rw [List.range_succ, List.countP_append, ih, List.countP_singleton]
    by_cases h : n < m
    · rw [if_pos (decide_eq_true h)]
      omega
    · rw [if_neg (by simpa using h)]
      omega

/-- The default boundaries are the first seven positive multiples of 1000. -/
theorem bandEdges_default : Params.default.bandEdgesUs = (List.range 7).map fun i => (i + 1) * 1000 := by decide

/-- `dt` has reached the boundary `(i + 1) * 1000` exactly when `i` is below its whole thousands. -/
theorem band_default (dt : Nat) : band Params.default dt = min (dt / 1000) 7 := by
  have hreached : ∀ i, decide (dt ≥ (i + 1) * 1000) = decide (i < dt / 1000) := fun i =>
    decide_eq_decide.2 (Nat.le_div_iff_mul_le (by decide)).symm
  rw [band, bandEdges_default, List.countP_map, ← countP_range_lt]
  exact List.countP_congr fun i _ => by simp [hreached]

/-- The default levels count down from 8. -/
theorem levelOfBand_default : ∀ b ≤ 7, Params.default.levelOfBand.getD b 0 = 8 - b := by decide

end Sys2Proof.Machine

section

open Sys2Proof Sys2Proof.Machine

/-- Settles O19: what holds of the band holds of its level, and at the defaults both are arithmetic. -/
theorem levelMap : Obligations.LevelMap := by
  refine ⟨fun p dt hwf => ⟨?counted, level_pos hwf dt, level_le hwf dt, fun _ => level_antitone hwf, ?first, ?last⟩,
    fun dt => ?defaults⟩
  case counted => exact band_eq_length_filter p dt ▸ level_some hwf dt
  case first => exact fun hlt => band_of_lt_all hlt ▸ level_some hwf dt
  case last =>
    intro hge
    have hband : band p dt = 7 := (band_of_ge_all hge).trans hwf.edges_length
    exact hband ▸ level_some hwf dt
  case defaults =>
    unfold level
    rw [band_default, levelOfBand_default _ (Nat.min_le_right _ 7)]

end

/-! SUPPORT. What the diagnostic reader received is read by no event (44_diagnostic.md R102): an event ends the
same way, and in the same block, in two states that differ in nothing else, and so does a run. -/

namespace Sys2Proof.Machine

/-! What an outcome is that is known without the reader's field. -/

theorem blockOf_eq_next_iff {r : Result} {b : State} : blockOf r = .next b ↔ ∃ t, r = .next t ∧ t.block = b := by
  cases r <;> simp [blockOf]

theorem blockOf_eq_fault_iff {r : Result} {f : Fault} : blockOf r = .fault f ↔ r = .fault f := by
  cases r <;> simp [blockOf]

theorem blockOf_ifReset (s : State) (r : Result) : blockOf (ifReset s r) = ifReset s (blockOf r) := by
  unfold ifReset
  split <;> rfl

theorem blockOf_withEntry (s : State) (pos : Nat) (k : Nat → Result) :
    blockOf (withEntry s pos k) = withEntry s pos fun thr => blockOf (k thr) := by
  unfold withEntry
  split
  · split <;> rfl
  · rfl

theorem zcPart_block (changed inp : Lines) (now : Nat) (s : State) :
    zcPart changed inp now s.block = (zcPart changed inp now s).block := by
  unfold zcPart
  rw [apply_ite State.block]
  rfl

/-- R102: no event reads what the reader received. -/
theorem blockOf_exec_block (i : Instr) (s : State) : blockOf (exec i s.block) = blockOf (exec i s) := by
  cases i with
  | tick =>
    simp only [exec, execTick, blockOf_ifReset, blockOf_withEntry]
    rfl
  | edge inp now =>
    have hprev : { s.block with prevIn := inp } = State.block { s with prevIn := inp } := rfl
    simp only [exec, execEdge, blockOf_ifReset]
    rw [hprev, zcPart_block]
    rfl
  | config v =>
    simp only [exec, execConfig, blockOf_ifReset]
    rfl
  | snap =>
    simp only [exec, execSnap, blockOf_ifReset]
    rfl
  | reset inp => rfl

theorem blockOf_exec_congr {s t : State} (h : s.block = t.block) (i : Instr) :
    blockOf (exec i s) = blockOf (exec i t) := by
  rw [← blockOf_exec_block, h, blockOf_exec_block]

/-- R100: after a RESET a SNAP completes and leaves the block as it was. -/
theorem exec_snap_of_init {s : State} (hi : s.init = true) : ∃ t, exec .snap s = .next t ∧ t.block = s.block :=
  ⟨_, execSnap_eq_next.2 ⟨hi, rfl⟩, rfl⟩

theorem notSnap_eq_false_iff {i : Instr} : notSnap i = false ↔ i = .snap := by
  cases i <;> simp [notSnap]

theorem execAll_cons_of_fault {i : Instr} {is : List Instr} {s : State} {f : Fault} (h : exec i s = .fault f) :
    execAll (i :: is) s = .fault f := by
  simp [execAll, h]

/-- Two runs that begin with the same event in the same block end alike when the rests do. -/
theorem blockOf_execAll_cons {i : Instr} {is js : List Instr} {s t : State} (hst : s.block = t.block)
    (hrest : ∀ s' t', exec i s = .next s' → s'.block = t'.block →
      blockOf (execAll is s') = blockOf (execAll js t')) :
    blockOf (execAll (i :: is) s) = blockOf (execAll (i :: js) t) := by
  have hexec := (blockOf_exec_congr hst i).symm
  cases hs : exec i s with
  | next s' =>
    rw [hs] at hexec
    obtain ⟨t', ht, hblock⟩ := blockOf_eq_next_iff.1 hexec
    rw [execAll_cons_of_next hs, execAll_cons_of_next ht]
    exact hrest s' t' hs hblock.symm
  | fault f =>
    rw [hs] at hexec
    rw [execAll_cons_of_fault hs, execAll_cons_of_fault (blockOf_eq_fault_iff.1 hexec)]
  | refused c => exact absurd hs (exec_ne_refused i s c)

/-- A run without its SNAPs follows the run itself, block by block: a SNAP leaves the block as it was, and any
other event is taken by both. -/
theorem blockOf_execAll_filter_notSnap (is : List Instr) : ∀ {s t : State}, s.init = true → s.block = t.block →
    blockOf (execAll is s) = blockOf (execAll (is.filter notSnap) t) := by
  induction is with
  | nil => exact fun _ hst => congrArg Host.Outcome.next hst
  | cons i is ih =>
    intro s t hi hst
    cases hkept : notSnap i with
    | true =>
      rw [List.filter_cons_of_pos hkept]
      exact blockOf_execAll_cons hst fun s' t' hs' => ih (exec_init hs')
    | false =>
      obtain rfl := notSnap_eq_false_iff.1 hkept
      obtain ⟨s', hs', hblock⟩ := exec_snap_of_init hi
      rw [List.filter_cons_of_neg (by decide), execAll_cons_of_next hs']
      exact ih (exec_init hs') (hblock.trans hst)

end Sys2Proof.Machine

section

open Sys2Proof Sys2Proof.Machine

/-- Settles O26: the run and the run without its SNAPs start in one state, so they keep to one block. -/
theorem snapsCanBeRemoved : Obligations.SnapsCanBeRemoved :=
  fun _ is hi => blockOf_execAll_filter_notSnap is hi rfl

end

/-! SUPPORT. Every event keeps the machine invariant, with operands that an event word can spell (10_state.md
R18 to R29): one lemma per event about the bounds of the state it leaves, and one for `exec` as a whole. -/

namespace Sys2Proof.Machine

/-- The record's numbers are in the ranges of R24 and R25. -/
def StringRec.InBounds (p : Params) (r : StringRec) : Prop := r.brightness ≤ p.l ∧ r.lastEdgeTime < 2 ^ p.tsW

theorem StringRec.inBounds_cleared (p : Params) : StringRec.cleared.InBounds p :=
  ⟨Nat.zero_le _, Nat.two_pow_pos _⟩

theorem StringRec.inBounds_clearSeen_resolve {p : Params} {r : StringRec} (h : r.InBounds p) (inp : Lines)
    (k : Nat) : (clearSeen (resolve p inp k r)).InBounds p := by
  obtain ⟨hbright, hlast⟩ := h
  rw [clearSeen_resolve]
  refine ⟨?_, hlast⟩
  dsimp only
  split
  · exact hbright
  · split
    · exact le_rfl
    · exact Nat.zero_le _

/-- An edge writes a level, which R6 bounds by `L`, and the event's own timestamp, or leaves them. -/
theorem StringRec.inBounds_measureEdge {p : Params} {r : StringRec} (h : r.InBounds p) (hwf : p.Wf) {now : Nat}
    (hnow : now < 2 ^ p.tsW) (c : Lines) (zcTs k : Nat) : (measureEdge p c now zcTs k r).InBounds p := by
  cases hacc : stringAccepted p c now k r with
  | false => rwa [measureEdge_of_not_accepted hacc]
  | true =>
    obtain hw | hw := Nat.lt_or_ge (elapsed p now zcTs) p.winUs
    · rw [measureEdge_in_window hacc hw]
      exact ⟨level_le hwf _, hnow⟩
    · rw [measureEdge_out_of_window hacc hw]
      refine ⟨h.1, ?_⟩
      dsimp only
      split
      · exact hnow
      · exact h.2

/-- An EDGE keeps every string's record in its ranges, whether or not a zero-crossing is accepted. -/
theorem exec_edge_inBounds {s t : State} {inp : Lines} {now : Stamp} (h : exec (.edge inp now) s = .next t)
    (hwf : s.params.Wf) (hnow : now.toNat < 2 ^ s.params.tsW) (hs : ∀ r ∈ s.strings, r.InBounds s.params) :
    ∀ r ∈ t.strings, r.InBounds s.params := by
  intro r' hr'
  obtain ⟨k, hk, rfl⟩ := List.mem_iff_getElem.1 hr'
  have hks : k < s.strings.length := execEdge_strings_length h ▸ hk
  have hrec := execEdge_record h (List.getElem?_eq_getElem hks)
  have hb := hs _ (List.getElem_mem hks)
  by_cases hz : s.ZcTaken inp now
  · rw [(List.getElem?_eq_some_iff.1 (hrec.1 hz)).2]
    exact StringRec.inBounds_measureEdge (StringRec.inBounds_clearSeen_resolve hb inp k) hwf hnow _ _ _
  · rw [(List.getElem?_eq_some_iff.1 (hrec.2 hz)).2]
    exact StringRec.inBounds_measureEdge hb hwf hnow _ _ _

theorem exec_edge_zcTs_lt {s t : State} {inp : Lines} {now : Stamp} (h : exec (.edge inp now) s = .next t)
    (hnow : now.toNat < 2 ^ s.params.tsW) (hs : s.zcTs < 2 ^ s.params.tsW) : t.zcTs < 2 ^ s.params.tsW := by
  by_cases hz : s.ZcTaken inp now
  · rwa [(execEdge_zcTs h).1 hz]
  · rwa [(execEdge_zcTs h).2 hz]

theorem State.Live.exec_tick {s t : State} (hs : s.Live) (h : exec .tick s = .next t) : t.Live := by
  obtain ⟨-, -, thr, -, rfl⟩ := execTick_eq_next.1 h
  exact { hs with
    tick_lt := nextTick_lt _
    out_length := (driveAll_length _ _).trans hs.strings_length }

theorem State.Live.exec_edge {s t : State} {inp : Lines} {now : Stamp} (hs : s.Live) (hwf : s.params.Wf)
    (hinp : inp.toNat < 2 ^ (s.params.nstr + 1)) (hnow : now.toNat < 2 ^ s.params.tsW)
    (h : exec (.edge inp now) s = .next t) : t.Live := by
  have hlen := (execEdge_strings_length h).trans hs.strings_length
  have hrec := exec_edge_inBounds h hwf hnow fun r hr => ⟨hs.brightness_le r hr, hs.lastEdge_lt r hr⟩
  have hzc := exec_edge_zcTs_lt h hnow hs.zcTs_lt
  rw [execEdge_frame h]
  exact { hs with
    strings_length := hlen
    brightness_le := fun r hr => (hrec r hr).1
    lastEdge_lt := fun r hr => (hrec r hr).2
    zcTs_lt := hzc
    prevIn_lt := hinp }

theorem State.Live.exec_config {s t : State} {v : Setting} (hs : s.Live) (hv : v.toNat < 2 ^ s.params.vW)
    (h : exec (.config v) s = .next t) : t.Live := by
  obtain ⟨-, rfl⟩ := execConfig_eq_next.1 h
  exact { hs with
    voltage_lt := hv
    unbuilt := nofun
    built := fun _ => ⟨rfl, rfl, rfl⟩ }

theorem State.Live.exec_snap {s t : State} (hs : s.Live) (h : exec .snap s = .next t) : t.Live := by
  obtain ⟨-, rfl⟩ := execSnap_eq_next.1 h
  exact { hs with }

theorem live_of_exec_reset {s t : State} {inp : Lines} (hinp : inp.toNat < 2 ^ (s.params.nstr + 1))
    (h : exec (.reset inp) s = .next t) : t.Live := by
  cases h
  have hrec : ∀ r ∈ List.replicate s.params.nstr StringRec.cleared, r.InBounds s.params := fun r hr =>
    List.eq_of_mem_replicate hr ▸ StringRec.inBounds_cleared _
  exact
    { tick_lt := Nat.two_pow_pos _
      voltage_lt := Nat.two_pow_pos _
      strings_length := List.length_replicate
      brightness_le := fun r hr => (hrec r hr).1
      lastEdge_lt := fun r hr => (hrec r hr).2
      zcTs_lt := Nat.two_pow_pos _
      prevIn_lt := hinp
      out_length := List.length_replicate
      unbuilt := fun _ => ⟨rfl, rfl, rfl, rfl⟩
      built := nofun }

theorem wellFormed_edge_iff {p : Params} {inp : Lines} {now : Stamp} :
    (Instr.edge inp now).wellFormed p = true ↔ inp.toNat < 2 ^ (p.nstr + 1) ∧ now.toNat < 2 ^ p.tsW := by
  simp [Instr.wellFormed, linesFit, stampFits]

theorem wellFormed_config_iff {p : Params} {v : Setting} :
    (Instr.config v).wellFormed p = true ↔ v.toNat < 2 ^ p.vW := decide_eq_true_iff

theorem wellFormed_reset_iff {p : Params} {inp : Lines} :
    (Instr.reset inp).wellFormed p = true ↔ inp.toNat < 2 ^ (p.nstr + 1) := decide_eq_true_iff

/-- A completed event with operands that fit leaves a state of the invariant. -/
theorem exec_keeps_inv {i : Instr} {s t : State} (hs : s.Inv) (hi : i.wellFormed s.params = true)
    (h : exec i s = .next t) : t.Inv := by
  refine ⟨(exec_params_events h).1 ▸ hs.params_wf, fun _ => ?_⟩
  cases i with
  | tick => exact (hs.live (execTick_eq_next.1 h).1).exec_tick h
  | edge inp now =>
    obtain ⟨hinp, hnow⟩ := wellFormed_edge_iff.1 hi
    exact (hs.live (execEdge_eq_next.1 h).1).exec_edge hs.params_wf hinp hnow h
  | config v => exact (hs.live (execConfig_eq_next.1 h).1).exec_config (wellFormed_config_iff.1 hi) h
  | snap => exact (hs.live (execSnap_eq_next.1 h).1).exec_snap h
  | reset inp => exact live_of_exec_reset (wellFormed_reset_iff.1 hi) h

end Sys2Proof.Machine

/-! SUPPORT. The boot order of R121, event by event: a completed event takes the two flags that the order reads to
where the order goes on, and in a state of the invariant the events that fault are those the order forbids. -/

namespace Sys2Proof.Machine

/-- After a completed event the boot order goes on from the flags of the state it left. -/
theorem bootOrder_cons_of_next {i : Instr} {s t : State} (h : exec i s = .next t) (is : List Instr) :
    bootOrder s.init s.tableBuilt (i :: is) = bootOrder t.init t.tableBuilt is := by
  cases i with
  | tick =>
    obtain ⟨hi, hb, thr, -, rfl⟩ := execTick_eq_next.1 h
    simp [bootOrder, hi, hb]
  | edge inp now =>
    rw [execEdge_frame h]
    simp [bootOrder, (execEdge_eq_next.1 h).1]
  | config v =>
    obtain ⟨hi, rfl⟩ := execConfig_eq_next.1 h
    simp [bootOrder, hi]
  | snap =>
    obtain ⟨hi, rfl⟩ := execSnap_eq_next.1 h
    simp [bootOrder, hi]
  | reset inp =>
    cases h
    rfl

/-- In a state of the invariant every event that the boot order allows there completes. -/
theorem exec_completes_of_bootOrder {i : Instr} {is : List Instr} {s : State} (hs : s.Inv)
    (h : bootOrder s.init s.tableBuilt (i :: is) = true) : ∃ t, exec i s = .next t := by
  cases i with
  | tick =>
    obtain ⟨hflags, -⟩ := Bool.and_eq_true_iff.1 h
    obtain ⟨hi, hb⟩ := Bool.and_eq_true_iff.1 hflags
    exact ⟨_, exec_tick_of_inv hs hi hb⟩
  | edge inp now =>
    obtain ⟨hi, -⟩ := Bool.and_eq_true_iff.1 h
    exact exec_edge_of_init hi inp now
  | config v =>
    obtain ⟨hi, -⟩ := Bool.and_eq_true_iff.1 h
    exact ⟨_, exec_config_of_init hi v⟩
  | snap =>
    obtain ⟨hi, -⟩ := Bool.and_eq_true_iff.1 h
    obtain ⟨t, ht, -⟩ := exec_snap_of_init hi
    exact ⟨t, ht⟩
  | reset inp => exact ⟨_, rfl⟩

/-- In a state of the invariant an event that faults breaks the boot order. -/
theorem bootOrder_cons_of_fault {i : Instr} {s : State} {f : Fault} (hs : s.Inv) (h : exec i s = .fault f)
    (is : List Instr) : bootOrder s.init s.tableBuilt (i :: is) = false := by
  rw [← Bool.not_eq_true]
  intro horder
  obtain ⟨t, ht⟩ := exec_completes_of_bootOrder hs horder
  cases h.symm.trans ht

/-- A run of spelled events from a state of the invariant keeps the boot order and completes, or it breaks the
order and faults. -/
theorem execAll_completes_or_faults (is : List Instr) : ∀ {s : State}, s.Inv →
    (∀ i ∈ is, i.wellFormed s.params = true) →
    (bootOrder s.init s.tableBuilt is = true ∧ ∃ t, execAll is s = .next t ∧ t.Inv) ∨
      (bootOrder s.init s.tableBuilt is = false ∧ ∃ f, execAll is s = .fault f) := by
  induction is with
  | nil => exact fun hs _ => .inl ⟨rfl, _, execAll_nil _, hs⟩
  | cons i is ih =>
    intro s hs hfit
    obtain ⟨hi, his⟩ := List.forall_mem_cons.1 hfit
    cases h : exec i s with
    | next t =>
      rw [bootOrder_cons_of_next h, execAll_cons_of_next h]
      exact ih (exec_keeps_inv hs hi h) ((exec_params_events h).1 ▸ his)
    | fault f => exact .inr ⟨bootOrder_cons_of_fault hs h is, f, execAll_cons_of_fault h⟩
    | refused c => exact absurd h (exec_ne_refused i s c)

end Sys2Proof.Machine

section

open Sys2Proof Sys2Proof.Machine

/-- Settles O32: of the run's two ends the boot order's value excludes one, and there are but two faults. -/
theorem runCompletesIffBootOrder : Obligations.RunCompletesIffBootOrder := by
  intro s is hs hfit
  obtain ⟨horder, hnext⟩ | ⟨horder, f, hfault⟩ := execAll_completes_or_faults is hs hfit
  · exact ⟨fun _ => hnext, by simp [horder]⟩
  · refine ⟨by simp [horder], fun _ => ?_⟩
    cases f with
    | notReset => exact .inl hfault
    | tableUnbuilt => exact .inr hfault

/-- Settles O30: each of the four events stands behind the guard on `init`. -/
theorem notResetFaults : Obligations.NotResetFaults := by
  intro s hi
  exact ⟨ifReset_of_not_init hi _, fun _ _ => ifReset_of_not_init hi _, fun _ => ifReset_of_not_init hi _,
    ifReset_of_not_init hi _⟩

/-- Settles O31: the guard on `init` is passed, and the one on `table_built` answers. -/
theorem tickFaultsWhileTableUnbuilt : Obligations.TickFaultsWhileTableUnbuilt :=
  fun _ hi hb => (ifReset_of_init hi _).trans (withEntry_of_unbuilt hb _ _)

end

/-! SUPPORT. The decoder and the encoder against each other (30_encoding.md R47 to R56): the fields of an encoded
event are its `op` and its operands, and the decoder's guards bound exactly the operands that can be spelled. -/

namespace Sys2Proof

/-- A range above `base` is clear exactly when the field from `base` up is a number below the range. -/
theorem clear_iff_field_lt (w : EventWord) {hi lo base : Nat} (h : base ≤ lo) :
    clear w hi lo = true ↔ field w hi base < 2 ^ (lo - base) := by
  rw [clear_iff_bits]
  constructor
  · intro hbits
    refine Nat.lt_pow_two_of_testBit _ fun i hi' => ?_
    rw [field_testBit]
    by_cases hin : i < hi + 1 - base
    · rw [hbits (i + base) (by omega), Bool.and_false]
    · rw [decide_eq_false hin, Bool.false_and]
  · intro hlt j ⟨hlo, hhi⟩
    have hbit := field_testBit w hi base (j - base)
    rw [Nat.testBit_lt_two_pow (hlt.trans_le (Nat.pow_le_pow_right (by decide) (by omega))),
      Nat.sub_add_cancel (by omega), decide_eq_true (by omega), Bool.true_and] at hbit
    exact hbit.symm

/-- The lines of a word read as R30 numbers them: with no line above `NSTR` set, all of bits [60:32]. -/
theorem linesOperand_toNat {p : Params} {w : EventWord} (hp : p.nstr ≤ 28)
    (hlt : field w 60 32 < 2 ^ (p.nstr + 1)) : (linesOperand p w).toNat = field w 60 32 := by
  have hpow : 2 ^ (p.nstr + 1) ∣ 2 ^ 29 := Nat.pow_dvd_pow 2 (by omega)
  have hfield : field w (32 + p.nstr) 32 = field w 60 32 := by
    rw [← Nat.mod_eq_of_lt hlt, field, field, Nat.mod_mod_of_dvd _ hpow, Nat.add_assoc, Nat.add_sub_cancel_left]
  rw [linesOperand, hfield, BitVec.toNat_ofNat]
  exact Nat.mod_eq_of_lt (field_lt w 60 32)

theorem stampOperand_toNat (w : EventWord) : (stampOperand w).toNat = field w 31 0 :=
  Nat.mod_eq_of_lt (field_lt w 31 0)

theorem settingOperand_toNat (w : EventWord) : (settingOperand w).toNat = field w 15 0 :=
  Nat.mod_eq_of_lt (field_lt w 15 0)

/-! ## What an encoded event is, field by field -/

theorem encode_tick_eq_iff {w : EventWord} : encode .tick = w ↔ field w 63 61 = 0 ∧ field w 60 0 = 0 := by
  have hlt := w.isLt
  rw [← BitVec.toNat_inj, encode_tick_toNat]
  simp only [field]
  omega

theorem encode_edge_eq_iff {w : EventWord} {inp : Lines} {now : Stamp} : encode (.edge inp now) = w ↔
    field w 63 61 = 1 ∧ inp.toNat = field w 60 32 ∧ now.toNat = field w 31 0 := by
  have hlt := w.isLt
  have hinp := inp.isLt
  have hnow := now.isLt
  rw [← BitVec.toNat_inj, encode_edge_toNat]
  simp only [field]
  omega

theorem encode_config_eq_iff {w : EventWord} {v : Setting} : encode (.config v) = w ↔
    field w 63 61 = 2 ∧ field w 60 16 = 0 ∧ v.toNat = field w 15 0 := by
  have hlt := w.isLt
  have hv := v.isLt
  rw [← BitVec.toNat_inj, encode_config_toNat]
  simp only [field]
  omega

theorem encode_snap_eq_iff {w : EventWord} : encode .snap = w ↔ field w 63 61 = 3 ∧ field w 60 0 = 0 := by
  have hlt := w.isLt
  rw [← BitVec.toNat_inj, encode_snap_toNat]
  simp only [field]
  omega

theorem encode_reset_eq_iff {w : EventWord} {inp : Lines} : encode (.reset inp) = w ↔
    field w 63 61 = 4 ∧ inp.toNat = field w 60 32 ∧ field w 31 0 = 0 := by
  have hlt := w.isLt
  have hinp := inp.isLt
  rw [← BitVec.toNat_inj, encode_reset_toNat]
  simp only [field]
  omega

/-! ## The guards of the decoder as bounds on the operands -/

theorem edge_guard_iff (p : Params) (w : EventWord) : (clear w 60 (33 + p.nstr) && clear w 31 p.tsW) = true ↔
    field w 60 32 < 2 ^ (p.nstr + 1) ∧ field w 31 0 < 2 ^ p.tsW := by
  rw [Bool.and_eq_true, clear_iff_field_lt w (show 32 ≤ 33 + p.nstr by omega),
    clear_iff_field_lt w p.tsW.zero_le, show 33 + p.nstr - 32 = p.nstr + 1 by omega, Nat.sub_zero]

theorem config_guard_iff (p : Params) (w : EventWord) : (clear w 60 16 && clear w 15 p.vW) = true ↔
    field w 60 16 = 0 ∧ field w 15 0 < 2 ^ p.vW := by
  rw [Bool.and_eq_true, clear_iff, clear_iff_field_lt w p.vW.zero_le, Nat.sub_zero]

theorem reset_guard_iff (p : Params) (w : EventWord) : (clear w 60 (33 + p.nstr) && clear w 31 0) = true ↔
    field w 60 32 < 2 ^ (p.nstr + 1) ∧ field w 31 0 = 0 := by
  rw [Bool.and_eq_true, clear_iff w 31, clear_iff_field_lt w (show 32 ≤ 33 + p.nstr by omega),
    show 33 + p.nstr - 32 = p.nstr + 1 by omega]

/-! ## Decoder and encoder against each other -/

/-- What decodes can be spelled, and is spelled by the word it came from. -/
theorem encode_of_decode {p : Params} {w : EventWord} {i : Instr} (hp : p.nstr ≤ 28)
    (h : decode p w = .event i) : i.wellFormed p = true ∧ encode i = w := by
  unfold decode at h
  split at h
  case h_1 hop =>
    obtain ⟨hzero, rfl⟩ := eventIf_eq_event.1 h
    exact ⟨rfl, encode_tick_eq_iff.2 ⟨hop, (clear_iff w 60 0).1 hzero⟩⟩
  case h_2 hop =>
    obtain ⟨hguard, rfl⟩ := eventIf_eq_event.1 h
    obtain ⟨hlines, hstamp⟩ := (edge_guard_iff p w).1 hguard
    have hl := linesOperand_toNat hp hlines
    have hs := stampOperand_toNat w
    exact ⟨Machine.wellFormed_edge_iff.2 ⟨hl ▸ hlines, hs ▸ hstamp⟩, encode_edge_eq_iff.2 ⟨hop, hl, hs⟩⟩
  case h_3 hop =>
    obtain ⟨hguard, rfl⟩ := eventIf_eq_event.1 h
    obtain ⟨hzero, hsetting⟩ := (config_guard_iff p w).1 hguard
    have hv := settingOperand_toNat w
    exact ⟨Machine.wellFormed_config_iff.2 (hv ▸ hsetting), encode_config_eq_iff.2 ⟨hop, hzero, hv⟩⟩
  case h_4 hop =>
    obtain ⟨hzero, rfl⟩ := eventIf_eq_event.1 h
    exact ⟨rfl, encode_snap_eq_iff.2 ⟨hop, (clear_iff w 60 0).1 hzero⟩⟩
  case h_5 hop =>
    obtain ⟨hguard, rfl⟩ := eventIf_eq_event.1 h
    obtain ⟨hlines, hzero⟩ := (reset_guard_iff p w).1 hguard
    have hl := linesOperand_toNat hp hlines
    exact ⟨Machine.wellFormed_reset_iff.2 (hl ▸ hlines), encode_reset_eq_iff.2 ⟨hop, hl, hzero⟩⟩
  case h_6 => nomatch h

/-- An event that can be spelled is what its word decodes to. -/
theorem decode_encode {p : Params} {i : Instr} (hp : p.nstr ≤ 28) (hi : i.wellFormed p = true) :
    decode p (encode i) = .event i := by
  cases i with
  | tick => rfl
  | edge inp now =>
    obtain ⟨hop, hl, hs⟩ := encode_edge_eq_iff.1 (rfl : encode (.edge inp now) = _)
    obtain ⟨hlines, hstamp⟩ := Machine.wellFormed_edge_iff.1 hi
    rw [hl] at hlines
    rw [hs] at hstamp
    simp only [decode, hop, eventIf_eq_event, edge_guard_iff, Instr.edge.injEq]
    exact ⟨⟨hlines, hstamp⟩, BitVec.eq_of_toNat_eq ((linesOperand_toNat hp hlines).trans hl.symm),
      BitVec.eq_of_toNat_eq ((stampOperand_toNat _).trans hs.symm)⟩
  | config v =>
    obtain ⟨hop, hzero, hv⟩ := encode_config_eq_iff.1 (rfl : encode (.config v) = _)
    have hsetting := Machine.wellFormed_config_iff.1 hi
    rw [hv] at hsetting
    simp only [decode, hop, eventIf_eq_event, config_guard_iff, Instr.config.injEq]
    exact ⟨⟨hzero, hsetting⟩, BitVec.eq_of_toNat_eq ((settingOperand_toNat _).trans hv.symm)⟩
  | snap => rfl
  | reset inp =>
    obtain ⟨hop, hl, hzero⟩ := encode_reset_eq_iff.1 (rfl : encode (.reset inp) = _)
    have hlines := Machine.wellFormed_reset_iff.1 hi
    rw [hl] at hlines
    simp only [decode, hop, eventIf_eq_event, reset_guard_iff, Instr.reset.injEq]
    exact ⟨⟨hlines, hzero⟩, BitVec.eq_of_toNat_eq ((linesOperand_toNat hp hlines).trans hl.symm)⟩

end Sys2Proof

/-! SUPPORT. The step with a word taken: what a completed step was, and which words it refuses. -/

namespace Sys2Proof.Machine

/-- A word of a defined `op` that spells no event is refused: what decoded would spell it. -/
theorem step_of_unspelled_word {s : State} {w : EventWord} {rest : List EventWord} (hwf : s.params.Wf)
    (hev : s.events = w :: rest) (hop : (w.extractLsb' 61 3).toNat < 5)
    (hnone : ∀ i : Instr, i.wellFormed s.params = true → encode i ≠ w) : step s = .refused .malformedEvent := by
  rw [step_eq_malformedEvent_iff hwf hev]
  obtain ⟨hres, -⟩ | ⟨-, b, i, hd, -⟩ := decode_cases s.params w
  · omega
  · cases b with
    | false => exact hd
    | true =>
      obtain ⟨hi, henc⟩ := encode_of_decode hwf.nstr_le hd
      exact absurd henc (hnone i hi)

theorem step_of_no_word {s : State} (hwf : s.params.Wf) (hev : s.events = []) : step s = .next s := by
  simp only [step, if_pos hwf, takeEvent, hev]

/-- A completed step was idle, or ran the event of the first waiting word with that word taken. -/
theorem step_next_cases {s t : State} (h : step s = .next t) : (s.events = [] ∧ t = s) ∨
    ∃ w rest i, s.events = w :: rest ∧ decode s.params w = .event i ∧
      exec i { s with events := rest } = .next t := by
  by_cases hwf : s.params.Wf
  · cases hev : s.events with
    | nil =>
      rw [step_of_no_word hwf hev] at h
      cases h
      exact .inl ⟨rfl, rfl⟩
    | cons w rest =>
      rw [step_of_word hwf hev] at h
      cases hd : decode s.params w with
      | event i => exact .inr ⟨w, rest, i, rfl, hd, by rwa [hd, onDecoded] at h⟩
      | reservedEvent => simp [hd, onDecoded] at h
      | malformedEvent => simp [hd, onDecoded] at h
  · rw [step, if_neg hwf] at h
    nomatch h

/-- Taking a word keeps the invariant: it bounds no waiting word. -/
theorem State.Inv.with_events {s : State} (hs : s.Inv) (ws : List EventWord) : { s with events := ws }.Inv :=
  ⟨hs.params_wf, fun hi => { hs.live hi with }⟩

end Sys2Proof.Machine

section

open Sys2Proof Sys2Proof.Machine

/-- Settles O36: each event's fields pass the decoder's guards and read back as its operands. -/
theorem decodeOfEncode : Obligations.DecodeOfEncode := fun _ _ hwf => decode_encode hwf.nstr_le

/-- Settles O37: the guards bound the operands, and the fields that are read or 0 make up the word. -/
theorem encodeOfDecode : Obligations.EncodeOfDecode := fun _ _ _ hwf => encode_of_decode hwf.nstr_le

/-- Settles O34: a word refused by the decoder is malformed unless its `op` is reserved. -/
theorem malformedWordsAreRefused : Obligations.MalformedWordsAreRefused :=
  ⟨fun _ _ _ => step_of_unspelled_word, decodes_iff_matches_row⟩

/-- Settles O38: the eight words are decoded by evaluation. -/
theorem workedEncodingsDecode : Obligations.WorkedEncodingsDecode := by
  refine ⟨?_, ?_, ?_, ?_, ?_, ?_, ?_, ?_⟩ <;> decide

/-- Settles O41: both clauses are the step's own branches. -/
theorem stepRunsTheDecodedEvent : Obligations.StepRunsTheDecodedEvent := by
  intro s hwf
  refine ⟨fun w rest i hev hd => ?word, step_of_no_word hwf⟩
  case word => rw [step_of_word hwf hev, hd, onDecoded]

/-- Settles O42: the event run after the word was taken changes neither the words nor the parameters. -/
theorem stepTakesExactlyOneEvent : Obligations.StepTakesExactlyOneEvent := by
  intro s t h
  obtain ⟨hnone, rfl⟩ | ⟨w, rest, i, hev, -, hexec⟩ := step_next_cases h
  · simp [hnone]
  · obtain ⟨hparams, hevents⟩ := exec_params_events hexec
    refine ⟨fun w' rest' hev' => ?_, by simp [hev]⟩
    obtain ⟨-, rfl⟩ := List.cons.inj (hev.symm.trans hev')
    exact ⟨hevents, hparams⟩

/-- Settles O45: what decodes is spelled, so its event keeps the invariant of the state with the word taken. -/
theorem stepKeepsTheInvariant : Obligations.StepKeepsTheInvariant := by
  intro s t hs h
  obtain ⟨-, rfl⟩ | ⟨w, rest, i, -, hd, hexec⟩ := step_next_cases h
  · exact hs
  · exact exec_keeps_inv (hs.with_events rest) (encode_of_decode hs.params_wf.nstr_le hd).1 hexec

/-- Settles O46: `State.reset` is what a RESET with all lines low leaves, and before a RESET the invariant asks
for the parameters alone. -/
theorem resetMeetsTheInvariant : Obligations.ResetMeetsTheInvariant :=
  ⟨⟨by decide, fun _ => live_of_exec_reset (s := State.powerOn Params.default) (inp := 0#29) (by decide) rfl⟩,
    fun _ hi hwf => ⟨hwf, by simp [hi]⟩⟩

end

/-! SUPPORT. Runs of TICKs (40_time_base.md R59 to R62, R127): the one state that `n` TICKs leave, and the cycle
positions they take. -/

namespace Sys2Proof.Machine

/-- The state `n` TICKs leave, `n` at least 1: the counter `n` on, the outputs of the position it then has. -/
def State.ticked (s : State) (n : Nat) : State :=
  { s with
    tick := (s.tick + n) % 2 ^ s.params.tickW
    out := driveAll s.strings
      (tableEntry s.params s.maxdc (cyclePos s.params ((s.tick + n) % 2 ^ s.params.tickW))) }

theorem ticked_ticked (s : State) (m n : Nat) : (s.ticked m).ticked n = s.ticked (m + n) := by
  simp only [State.ticked, Nat.mod_add_mod, Nat.add_assoc]

theorem exec_tick_eq_ticked {s : State} (hs : s.Inv) (hi : s.init = true) (hb : s.tableBuilt = true) :
    exec .tick s = .next (s.ticked 1) := exec_tick_of_inv hs hi hb

/-- In a state with a table any number of TICKs completes. -/
theorem ticks_eq_ticked (n : Nat) : ∀ {s : State}, s.Inv → s.init = true → s.tableBuilt = true →
    ticks (n + 1) s = .next (s.ticked (n + 1)) := by
  induction n with
  | zero => exact fun hs hi hb => execAll_cons_of_next (exec_tick_eq_ticked hs hi hb)
  | succ n ih =>
    intro s hs hi hb
    have hfirst := exec_tick_eq_ticked hs hi hb
    calc ticks (n + 2) s
      _ = ticks (n + 1) (s.ticked 1) := execAll_cons_of_next hfirst
      _ = .next ((s.ticked 1).ticked (n + 1)) := ih (exec_keeps_inv hs rfl hfirst) hi hb
      _ = .next (s.ticked (n + 2)) := by rw [ticked_ticked, Nat.add_comm 1]

theorem ticked_out_getElem? {s : State} {k : Nat} {r : StringRec} (hr : s.strings[k]? = some r) (n : Nat) :
    (s.ticked n).out[k]? = some (decide
      (tableEntry s.params s.maxdc (cyclePos s.params ((s.tick + n) % 2 ^ s.params.tickW)) ≤ r.brightness)) :=
  driveAll_getElem? hr _

/-- When `PWM_N` divides `2^TICK_W` no wrap of the counter moves the cycle position (R7, R127). -/
theorem cyclePos_wrap {p : Params} (h : p.pwmN ∣ 2 ^ p.tickW) (n : Nat) :
    cyclePos p (n % 2 ^ p.tickW) = cyclePos p n := Nat.mod_mod_of_dvd n h

/-- One period on, a TICK takes the same position and leaves the same outputs. -/
theorem ticked_out_add_pwmN {s : State} (h : s.params.pwmN ∣ 2 ^ s.params.tickW) (n : Nat) :
    (s.ticked (n + s.params.pwmN)).out = (s.ticked n).out := by
  have hpos : cyclePos s.params (s.tick + (n + s.params.pwmN)) = cyclePos s.params (s.tick + n) := by
    rw [cyclePos, ← Nat.add_assoc, Nat.add_mod_right, cyclePos]
  simp only [State.ticked, cyclePos_wrap h, hpos]

end Sys2Proof.Machine

section

open Sys2Proof Sys2Proof.Machine

/-- Settles O2: the `n` TICKs leave one known state, and the invariant's table has an entry at its position. -/
theorem ticksCountAndPlaceOutputs : Obligations.TicksCountAndPlaceOutputs := by
  intro s n hs hi hb hn
  obtain ⟨m, rfl⟩ := Nat.exists_eq_add_of_le' hn
  exact ⟨_, _, hs.table_getElem? hi hb (cyclePos_lt hs.params_wf _), ticks_eq_ticked m hs hi hb, rfl,
    fun _ _ hr => ticked_out_getElem? hr _, rfl⟩

/-- Settles O7: the counter is taken modulo `2^TICK_W`, and `PWM_N` dividing that the position does not see it. -/
theorem positionAtTheCounterWrap : Obligations.PositionAtTheCounterWrap := by
  intro s hs hi hb
  have hlt := (hs.live hi).tick_lt
  refine ⟨_, exec_tick_eq_ticked hs hi hb, fun htop => ?wrap, fun hbelow => Nat.mod_eq_of_lt (by omega),
    fun hdvd => ?next⟩
  case wrap =>
    have hzero : (s.ticked 1).tick = 0 := by
      have hsum : s.tick + 1 = 2 ^ s.params.tickW := by omega
      rw [State.ticked, hsum, Nat.mod_self]
    rw [hzero, htop]
    exact ⟨rfl, Nat.zero_mod _, rfl⟩
  case next => exact (cyclePos_wrap hdvd _).trans (Nat.mod_add_mod _ _ _).symm

/-- Settles O8: both runs complete, and the later one ends a whole period on. -/
theorem outputsRecurEveryPeriod : Obligations.OutputsRecurEveryPeriod := by
  intro s n hs hi hb hn hdvd
  obtain ⟨m, rfl⟩ := Nat.exists_eq_add_of_le' hn
  refine ⟨_, _, ticks_eq_ticked m hs hi hb, ?_, ticked_out_add_pwmN hdvd _⟩
  rw [Nat.add_right_comm]
  exact ticks_eq_ticked (m + s.params.pwmN) hs hi hb

end

/-! SUPPORT. The duty cycle (41_output_driver.md R69, R70; 42_table_builder.md R74 to R76): which entries of a
table a brightness reaches, and how many TICKs of one period leave a string lit. -/

namespace Sys2Proof.Machine

variable {p : Params}

/-- How many positions of a table of step count `m` a brightness `b` reaches: `ceil(b*m/L)`. -/
def litRun (p : Params) (m b : Nat) : Nat := (b * m + p.l - 1) / p.l

theorem lt_litRun_iff (hl : 1 ≤ p.l) {m b i : Nat} : i < litRun p m b ↔ i * p.l < b * m := by
  rw [litRun, ← Nat.succ_le_iff, Nat.le_div_iff_mul_le hl, Nat.succ_mul]
  omega

/-- A level never reaches past the ramp. -/
theorem litRun_le (hl : 1 ≤ p.l) {m b : Nat} (hb : b ≤ p.l) : litRun p m b ≤ m := by
  rw [← Nat.not_lt, lt_litRun_iff hl, Nat.not_lt, Nat.mul_comm m]
  exact Nat.mul_le_mul_right m hb

/-- R69: a brightness reaches the ramp entry `i * L / m + 1` exactly while `i * L < b * m`, and no sentinel. -/
theorem tableEntry_le_iff (h : p.Wf) {m b i : Nat} (hb : b ≤ p.l) :
    tableEntry p m i ≤ b ↔ i < litRun p m b := by
  obtain hi | hi := Nat.lt_or_ge i m
  · rw [tableEntry_ramp hi, Nat.succ_le_iff, Nat.div_lt_iff_lt_mul (Nat.zero_lt_of_lt hi), lt_litRun_iff h.l_pos]
  · have hlt := h.l_lt_sentinel
    have hrun := litRun_le h.l_pos (m := m) hb
    rw [tableEntry_sentinel hi]
    omega

theorem tableEntry_le_sentinel (h : p.Wf) (m i : Nat) : tableEntry p m i ≤ p.sentinel := by
  obtain hi | hi := Nat.lt_or_ge i m
  · exact (tableEntry_ramp_le h hi).trans h.l_lt_sentinel.le
  · exact (tableEntry_sentinel hi).le

/-- R76: the entries do not decrease with the position. -/
theorem tableEntry_mono (h : p.Wf) (m : Nat) {i j : Nat} (hij : i ≤ j) : tableEntry p m i ≤ tableEntry p m j := by
  obtain hj | hj := Nat.lt_or_ge j m
  · rw [tableEntry_ramp (hij.trans_lt hj), tableEntry_ramp hj]
    exact Nat.succ_le_succ (Nat.div_le_div_right (Nat.mul_le_mul_right _ hij))
  · rw [tableEntry_sentinel hj]
    exact tableEntry_le_sentinel h m i

/-- R80: the table of step count 1. -/
theorem buildTable_one (h : p.Wf) : buildTable p 1 = 1 :: List.replicate (p.pwmN - 1) p.sentinel := by
  obtain ⟨n, hn⟩ := Nat.exists_eq_add_of_le' h.pwmN_pos
  have htail : (tableEntry p 1 ∘ Nat.succ) = Function.const Nat p.sentinel :=
    funext fun i => tableEntry_sentinel (Nat.succ_pos i)
  rw [buildTable, hn, List.range_succ_eq_map, List.map_cons, List.map_map, htail, List.map_const,
    List.length_range, tableEntry_ramp Nat.one_pos]
  simp

/-- R80: with step count 1 a string is lit at position 0 only, and there if it has any brightness. -/
theorem tableEntry_one_le_iff (h : p.Wf) {b i : Nat} (hb : b ≤ p.l) :
    tableEntry p 1 i ≤ b ↔ 1 ≤ b ∧ i = 0 := by
  cases i with
  | zero => simp [tableEntry_ramp]
  | succ i =>
    have hlt := h.l_lt_sentinel
    rw [tableEntry_sentinel (Nat.succ_pos i)]
    omega

/-- A setting at or below the forward drop has step count 1 and is flagged (R6, R73). -/
theorem exec_config_degenerate {s : State} (hwf : s.params.Wf) (hi : s.init = true) {v : Setting}
    (hv : v.toNat ≤ s.params.vfDv) :
    exec (.config v) s = .next { s with
      voltage := v.toNat
      maxdc := 1
      cfgDegenerate := true
      table := buildTable s.params 1
      tableBuilt := true } := by
  have hraw : s.params.maxdcRaw v.toNat < 1 := Int.lt_add_one_of_le (hwf.maxdcRaw_nonpos hv)
  rw [exec_config_of_init hi, clampMaxdc_of_lt hraw, degenerate_eq_true_iff.2 hraw]

/-- The positions of a whole period after a counter value are all the positions, in some order. -/
theorem range_map_add_mod_perm (a n : Nat) : ((List.range n).map fun j => (a + j) % n).Perm (List.range n) := by
  have hperiod : ((List.range' a (a + n - a)).map (· % n)).Perm (List.range n) :=
    Multiset.coe_eq_coe.1 (Nat.multiset_Ico_map_mod a n)
  rwa [Nat.add_sub_cancel_left, List.range'_eq_map_range, List.map_map] at hperiod

theorem litAfter_next (k : Nat) (t : State) : litAfter k (.next t) = (t.out[k]? == some true) := rfl

/-- Position `pos` of a table of step count `m` is lit for a brightness `b`. -/
def litAt (p : Params) (m b pos : Nat) : Bool := decide (pos < litRun p m b)

theorem litAfter_ticks {s : State} (hs : s.Inv) (hi : s.init = true) (hb : s.tableBuilt = true)
    {k : Nat} {r : StringRec} (hr : s.strings[k]? = some r) (n : Nat) :
    litAfter k (ticks (n + 1) s) =
      litAt s.params s.maxdc r.brightness (cyclePos s.params ((s.tick + (n + 1)) % 2 ^ s.params.tickW)) := by
  have hle := (hs.live hi).brightness_le r (List.mem_of_getElem? hr)
  rw [ticks_eq_ticked n hs hi hb, litAfter_next, ticked_out_getElem? hr]
  simp [litAt, tableEntry_le_iff hs.params_wf hle]

/-- Over one period the lit positions are counted, each once, from whatever position the period starts. -/
theorem litCount_pwmN {s : State} (hs : s.Inv) (hi : s.init = true) (hb : s.tableBuilt = true)
    (hdvd : s.params.pwmN ∣ 2 ^ s.params.tickW) {k : Nat} {r : StringRec} (hr : s.strings[k]? = some r) :
    litCount k s.params.pwmN s = min (litRun s.params s.maxdc r.brightness) s.params.pwmN := by
  calc litCount k s.params.pwmN s
    _ = (List.range s.params.pwmN).countP fun j =>
        litAt s.params s.maxdc r.brightness ((s.tick + 1 + j) % s.params.pwmN) := by
      refine List.countP_congr fun j _ => ?_
      rw [litAfter_ticks hs hi hb hr, cyclePos_wrap hdvd, Nat.add_right_comm s.tick 1 j]
      rfl
    _ = ((List.range s.params.pwmN).map fun j => (s.tick + 1 + j) % s.params.pwmN).countP
        (litAt s.params s.maxdc r.brightness) := by rw [List.countP_map]; rfl
    _ = (List.range s.params.pwmN).countP (litAt s.params s.maxdc r.brightness) :=
      (range_map_add_mod_perm _ _).countP_eq _
    _ = min (litRun s.params s.maxdc r.brightness) s.params.pwmN := countP_range_lt _ _

/-- After a CONFIG the step count is in its range (R73). -/
theorem State.Inv.maxdc_le {s : State} (hs : s.Inv) (hi : s.init = true) (hb : s.tableBuilt = true) :
    s.maxdc ≤ s.params.pwmN := by
  obtain ⟨hmaxdc, -, -⟩ := (hs.live hi).built hb
  exact hmaxdc ▸ clampMaxdc_le hs.params_wf _

end Sys2Proof.Machine

section

open Sys2Proof Sys2Proof.Machine

/-- Settles O3: past the ramp the entry is the sentinel, which no brightness reaches, and 0 reaches no entry. -/
theorem forcedOff : Obligations.ForcedOff := by
  intro s hs hi hb
  have hwf := hs.params_wf
  refine ⟨_, _, exec_tick_eq_ticked hs hi hb, hs.table_getElem? hi hb (cyclePos_lt hwf _),
    tableEntry_pos hwf _ _, fun hpast => ?past, fun k r hr hzero => ?zero⟩
  case past =>
    have hentry := tableEntry_sentinel (p := s.params) hpast
    refine ⟨hentry, hentry ▸ hwf.l_lt_sentinel, List.forall_mem_map.2 fun r hr => decide_eq_false ?_⟩
    have hle := (hs.live hi).brightness_le r hr
    exact Nat.not_le.2 (hle.trans_lt (hentry ▸ hwf.l_lt_sentinel))
  case zero =>
    rw [ticked_out_getElem? hr, hzero, decide_eq_false]
    exact Nat.not_le.2 (tableEntry_pos hwf _ _)

/-- Settles O6: ramp and sentinel entries against a level. -/
theorem litPositionsAreOneRunFromZero : Obligations.LitPositionsAreOneRunFromZero := by
  intro p m b i thr hwf _ _ hb hthr
  obtain ⟨-, rfl⟩ := buildTable_some hthr
  exact tableEntry_le_iff hwf hb

/-- Settles O5: a period meets every position once, and the lit ones are the run below `ceil(b*maxdc/L)`, which
ends by `maxdc`. -/
theorem dutyPerPeriod : Obligations.DutyPerPeriod := by
  intro s k r hs hi hb hdvd hr
  have hrun : litRun s.params s.maxdc r.brightness ≤ s.maxdc :=
    litRun_le hs.params_wf.l_pos ((hs.live hi).brightness_le r (List.mem_of_getElem? hr))
  rw [litCount_pwmN hs hi hb hdvd hr, Nat.min_eq_left (hrun.trans (hs.maxdc_le hi hb))]
  exact (Nat.min_eq_right hrun).symm

/-- Settles O12: the entries do not decrease, so one that stands between two equal ones is equal to both. -/
theorem tableIsMonotone : Obligations.TableIsMonotone := by
  intro s v hwf hi
  have hmono (m : Nat) {i j x y : Nat} (hij : i ≤ j) (hx : (buildTable s.params m)[i]? = some x)
      (hy : (buildTable s.params m)[j]? = some y) : x ≤ y := by
    obtain ⟨-, rfl⟩ := buildTable_some hx
    obtain ⟨-, rfl⟩ := buildTable_some hy
    exact tableEntry_mono hwf m hij
  refine ⟨_, exec_config_of_init hi v, ?first, fun _ _ _ _ => hmono _, fun i x him hx => ?ramp,
    fun i x him hx => ?sentinel, fun i j n x y hij hjn hx hn hy => ?run⟩
  case first =>
    have hpos := clampMaxdc_pos hwf (s.params.maxdcRaw v.toNat)
    rw [buildTable_ramp (clampMaxdc_le hwf _) hpos, Nat.zero_mul, Nat.zero_div]
  case ramp =>
    obtain ⟨-, rfl⟩ := buildTable_some hx
    have hle := tableEntry_ramp_le hwf him
    exact ⟨tableEntry_pos hwf _ _, hle, hle.trans_lt hwf.l_lt_sentinel⟩
  case sentinel =>
    obtain ⟨-, rfl⟩ := buildTable_some hx
    exact tableEntry_sentinel him
  case run => exact Nat.le_antisymm (hmono _ hjn hy hn) (hmono _ hij hx hy)

/-- Settles O13: such a setting has step count 1, so the ramp is the one entry 1 at position 0. -/
theorem degenerateOutput : Obligations.DegenerateOutput := by
  intro s v hs hi hv
  have hwf := hs.params_wf
  refine ⟨_, _, exec_config_degenerate hwf hi hv, rfl, rfl, buildTable_one hwf,
    execTick_eq_next.2 ⟨hi, rfl, _, buildTable_getElem? (cyclePos_lt hwf _), rfl⟩, fun k r hr => ?_⟩
  have hle := (hs.live hi).brightness_le r (List.mem_of_getElem? hr)
  exact (driveAll_getElem? hr _).trans (congrArg some (decide_eq_decide.2 (tableEntry_one_le_iff hwf hle)))

end

/-! SUPPORT. EDGE by EDGE (43_edge_detector.md R96 to R99; 70_reset_and_hazards.md R132): what one string's record
depends on, and which events leave a zero-crossing reference or a record as it was. -/

namespace Sys2Proof.Machine

section Lanes

variable {s s' t t' : State} {inp inp' : Lines} {now : Stamp} {k : Nat}

theorem stringLine_changeSet (inp prev : Lines) (k : Nat) :
    stringLine (changeSet inp prev) k = (inp.getLsbD (k + 1) ^^ prev.getLsbD (k + 1)) :=
  BitVec.getLsbD_xor

/-- Of the change set a string's measurement reads its own line. -/
theorem measureEdge_congr (p : Params) {c c' : Lines} (h : stringLine c k = stringLine c' k) (n z : Nat)
    (r : StringRec) : measureEdge p c n z k r = measureEdge p c' n z k r := by
  have hacc : stringAccepted p c n k r = stringAccepted p c' n k r := by rw [stringAccepted, h, stringAccepted]
  rw [measureEdge, hacc, measureEdge]

/-- Of the sample a string's resolution reads its own line. -/
theorem clearSeen_resolve_congr (p : Params) (h : inp.getLsbD (k + 1) = inp'.getLsbD (k + 1)) (r : StringRec) :
    clearSeen (resolve p inp k r) = clearSeen (resolve p inp' k r) := by
  simp only [clearSeen_resolve, h]

theorem zcTaken_congr (hp : s.params = s'.params) (hz : s.zcTs = s'.zcTs) (hinp : inp.getLsbD 0 = inp'.getLsbD 0)
    (hprev : s.prevIn.getLsbD 0 = s'.prevIn.getLsbD 0) : s.ZcTaken inp now ↔ s'.ZcTaken inp' now := by
  simp only [State.ZcTaken, State.LineChanged, hp, hz, hinp, hprev]

/-- An EDGE makes no record where there was none. -/
theorem exec_edge_strings_none (h : exec (.edge inp now) s = .next t) (hk : s.strings[k]? = none) :
    t.strings[k]? = none := by
  rw [List.getElem?_eq_none_iff] at hk ⊢
  exact (execEdge_strings_length h).trans_le hk

/-- A string whose line did not change has no edge to accept. -/
theorem not_edgeTaken_of_line_eq (h : inp.getLsbD (k + 1) = s.prevIn.getLsbD (k + 1)) (r : StringRec) :
    ¬ s.EdgeTaken inp now k r := fun he => he.1 h

/-- Without an accepted edge of the string its time of last edge stands, and its flag is not set. -/
theorem exec_edge_record_of_not_edgeTaken (h : exec (.edge inp now) s = .next t) {r : StringRec}
    (hr : s.strings[k]? = some r) (he : ¬ s.EdgeTaken inp now k r) :
    ∃ r', t.strings[k]? = some r' ∧ r'.lastEdgeTime = r.lastEdgeTime ∧ (r.seen = false → r'.seen = false) := by
  by_cases hz : s.ZcTaken inp now
  · exact ⟨_, exec_edge_record_resolved h hr hz he, by rw [clearSeen_resolve], fun _ => rfl⟩
  · exact ⟨r, exec_edge_record_kept h hr hz he, rfl, id⟩

/-- With neither a zero-crossing nor any string's edge accepted an EDGE records its sample and nothing else. -/
theorem exec_edge_rejected (hi : s.init = true) (hz : ¬ s.ZcTaken inp now)
    (he : ∀ (k : Nat) (r : StringRec), s.strings[k]? = some r → ¬ s.EdgeTaken inp now k r) :
    exec (.edge inp now) s = .next { s with prevIn := inp } := by
  obtain ⟨t, ht⟩ := exec_edge_of_init hi inp now
  have hstrings : t.strings = s.strings := List.ext_getElem? fun k => by
    cases hk : s.strings[k]? with
    | none => exact exec_edge_strings_none ht hk
    | some r => exact exec_edge_record_kept ht hk hz (he k r hk)
  rw [ht, execEdge_frame ht, (execEdge_zcTs ht).2 hz, hstrings]

end Lanes

/-! The events that are no EDGE and no RESET leave all that the edge detector owns. -/

theorem exec_detector_frame {i : Instr} {s t : State} (h : exec i s = .next t)
    (hedge : ∀ inp now, i ≠ .edge inp now) (hreset : ∀ inp, i ≠ .reset inp) :
    t.strings = s.strings ∧ t.zcTs = s.zcTs ∧ t.prevIn = s.prevIn := by
  cases i with
  | tick => obtain ⟨-, -, thr, -, rfl⟩ := execTick_eq_next.1 h; exact ⟨rfl, rfl, rfl⟩
  | edge inp now => exact absurd rfl (hedge inp now)
  | config v => obtain ⟨-, rfl⟩ := execConfig_eq_next.1 h; exact ⟨rfl, rfl, rfl⟩
  | snap => obtain ⟨-, rfl⟩ := execSnap_eq_next.1 h; exact ⟨rfl, rfl, rfl⟩
  | reset inp => exact absurd rfl (hreset inp)

theorem exec_cases_of_keepsLine {k : Nat} {b : Bool} {i : Instr} {s t : State} (h : exec i s = .next t)
    (hi : keepsLine k b i = true) : (∃ inp now, i = .edge inp now ∧ inp.getLsbD (k + 1) = b) ∨
      (t.strings = s.strings ∧ t.zcTs = s.zcTs ∧ t.prevIn = s.prevIn) := by
  cases i with
  | edge inp now => exact .inl ⟨inp, now, rfl, beq_iff_eq.1 hi⟩
  | reset inp => nomatch hi
  | tick | config v | snap => exact .inr (exec_detector_frame h nofun nofun)

theorem exec_cases_of_stampsSatisfy {ok : Nat → Bool} {i : Instr} {s t : State} (h : exec i s = .next t)
    (hi : stampsSatisfy ok i = true) : (∃ inp now, i = .edge inp now ∧ ok now.toNat = true) ∨
      (t.strings = s.strings ∧ t.zcTs = s.zcTs ∧ t.prevIn = s.prevIn) := by
  cases i with
  | edge inp now => exact .inl ⟨inp, now, rfl, hi⟩
  | reset inp => nomatch hi
  | tick | config v | snap => exact .inr (exec_detector_frame h nofun nofun)

/-! What a run without a RESET keeps, each as a predicate of the state that every event of the run keeps. -/

/-- The parameters are `p`, string `k` is unseen, and its line was last sampled at level `b`. -/
def UnseenAt (p : Params) (k : Nat) (b : Bool) (s : State) : Prop :=
  s.params = p ∧ s.prevIn.getLsbD (k + 1) = b ∧ ∃ r, s.strings[k]? = some r ∧ r.seen = false

theorem exec_keeps_unseenAt {p : Params} {k : Nat} {b : Bool} {i : Instr} (hi : keepsLine k b i = true)
    {s t : State} (hs : UnseenAt p k b s) (h : exec i s = .next t) : UnseenAt p k b t := by
  obtain ⟨hparams, hline, r, hr, hunseen⟩ := hs
  refine ⟨(exec_params_events h).1.trans hparams, ?_⟩
  obtain ⟨inp, now, rfl, hinp⟩ | ⟨hstrings, -, hprev⟩ := exec_cases_of_keepsLine h hi
  · obtain ⟨r', hr', -, hflag⟩ :=
      exec_edge_record_of_not_edgeTaken h hr (not_edgeTaken_of_line_eq (hinp.trans hline.symm) r)
    rw [execEdge_frame h]
    exact ⟨hinp, r', hr', hflag hunseen⟩
  · rw [hprev, hstrings]
    exact ⟨hline, r, hr, hunseen⟩

/-- The parameters are `p`, and `z` is the phase reference. -/
def ReferenceIs (p : Params) (z : Nat) (s : State) : Prop := s.params = p ∧ s.zcTs = z

theorem exec_keeps_referenceIs {p : Params} {z : Nat} {i : Instr}
    (hi : stampsSatisfy (fun now => decide (elapsed p now z ≤ p.zcDebUs)) i = true)
    {s t : State} (hs : ReferenceIs p z s) (h : exec i s = .next t) : ReferenceIs p z t := by
  obtain ⟨rfl, rfl⟩ := hs
  refine ⟨(exec_params_events h).1, ?_⟩
  obtain ⟨inp, now, rfl, hnow⟩ | ⟨-, hzc, -⟩ := exec_cases_of_stampsSatisfy h hi
  · exact (execEdge_zcTs h).2 fun hz => absurd (of_decide_eq_true hnow) (Nat.not_le.2 hz.2.2)
  · exact hzc

/-- The parameters are `p`, string `k`'s last edge is that of the record `r`, and it is unseen where `r` is. -/
def LastEdgeOf (p : Params) (k : Nat) (r : StringRec) (s : State) : Prop :=
  s.params = p ∧ ∃ r', s.strings[k]? = some r' ∧ r'.lastEdgeTime = r.lastEdgeTime ∧
    (r.seen = false → r'.seen = false)

theorem exec_keeps_lastEdgeOf {p : Params} {k : Nat} {r : StringRec} {i : Instr}
    (hi : stampsSatisfy (fun now => decide (elapsed p now r.lastEdgeTime < p.strDebUs)) i = true)
    {s t : State} (hs : LastEdgeOf p k r s) (h : exec i s = .next t) : LastEdgeOf p k r t := by
  obtain ⟨rfl, r', hr', htime, hflag⟩ := hs
  refine ⟨(exec_params_events h).1, ?_⟩
  obtain ⟨inp, now, rfl, hnow⟩ | ⟨hstrings, -, -⟩ := exec_cases_of_stampsSatisfy h hi
  · have hearly : ¬ s.EdgeTaken inp now k r' := fun he =>
      absurd (of_decide_eq_true hnow) (Nat.not_lt.2 (htime ▸ he.2))
    obtain ⟨r'', hr'', htime', hflag'⟩ := exec_edge_record_of_not_edgeTaken h hr' hearly
    exact ⟨r'', hr'', htime'.trans htime, hflag' ∘ hflag⟩
  · exact ⟨r', hstrings ▸ hr', htime, hflag⟩

/-- R132: in a state with every timestamp 0 an EDGE within both windows is rejected. -/
theorem exec_edge_start_up {s : State} {inp : Lines} {now : Stamp} (hi : s.init = true)
    (hnow : now.toNat < 2 ^ s.params.tsW) (hzc : now.toNat ≤ s.params.zcDebUs)
    (hstr : now.toNat < s.params.strDebUs) (hz : s.zcTs = 0) (hs : ∀ r ∈ s.strings, r.lastEdgeTime = 0) :
    exec (.edge inp now) s = .next { s with prevIn := inp } := by
  have hage : elapsed s.params now.toNat 0 = now.toNat := elapsed_zero hnow
  refine exec_edge_rejected hi (fun ⟨_, _, hlate⟩ => ?_) (fun k r hr ⟨_, hlate⟩ => ?_)
  · rw [hz, hage] at hlate
    omega
  · rw [hs r (List.mem_of_getElem? hr), hage] at hlate
    omega

end Sys2Proof.Machine

section

open Sys2Proof Sys2Proof.Machine

/-- Settles O15: the frame lemma of EDGE. -/
theorem edgeRecordsSampleAndFrame : Obligations.EdgeRecordsSampleAndFrame := by
  intro s inp now hi
  obtain ⟨t, ht⟩ := exec_edge_of_init hi inp now
  have hframe := execEdge_frame ht
  exact ⟨t, ht, by rw [hframe], execEdge_strings_length ht, hframe⟩

/-- Settles O18: both parts of the EDGE read the named lines, the reference and the one record. -/
theorem edgeLanesAreIndependent : Obligations.EdgeLanesAreIndependent := by
  intro s s' t t' inp inp' now k h h' hp hzc hrec hinp0 hprev0 hinp hprev
  have hz : s.ZcTaken inp now ↔ s'.ZcTaken inp' now := zcTaken_congr hp hzc hinp0 hprev0
  have hline : stringLine (changeSet inp s.prevIn) k = stringLine (changeSet inp' s'.prevIn) k := by
    rw [stringLine_changeSet, hinp, hprev, stringLine_changeSet]
  refine ⟨?record, ?reference⟩
  case record =>
    cases hr : s.strings[k]? with
    | none => rw [exec_edge_strings_none h hr, exec_edge_strings_none h' (hrec ▸ hr)]
    | some r =>
      have hr' := hrec ▸ hr
      by_cases hzt : s.ZcTaken inp now
      · rw [(execEdge_record h hr).1 hzt, (execEdge_record h' hr').1 (hz.1 hzt), hp, measureEdge_congr _ hline,
          clearSeen_resolve_congr _ hinp]
      · rw [(execEdge_record h hr).2 hzt, (execEdge_record h' hr').2 (hz.not.1 hzt), hp, hzc,
          measureEdge_congr _ hline]
  case reference =>
    by_cases hzt : s.ZcTaken inp now
    · rw [(execEdge_zcTs h).1 hzt, (execEdge_zcTs h').1 (hz.1 hzt)]
    · rw [(execEdge_zcTs h).2 hzt, (execEdge_zcTs h').2 (hz.not.1 hzt), hzc]

/-- Settles O20: the two reductions modulo `2^TS_W` cancel. -/
theorem elapsedRecoversDistance : Obligations.ElapsedRecoversDistance := by
  intro p past d hpast
  refine ⟨fun hd => ?_, fun now => elapsed_lt p now past⟩
  calc elapsed p ((past + d) % 2 ^ p.tsW) past
    _ = ((past + d) % 2 ^ p.tsW + (2 ^ p.tsW - past)) % 2 ^ p.tsW := elapsed_eq hpast.le
    _ = (d + 2 ^ p.tsW) % 2 ^ p.tsW := by rw [Nat.mod_add_mod]; congr 1; omega
    _ = d := by rw [Nat.add_mod_right, Nat.mod_eq_of_lt hd]

/-- Settles O21: the string stays unseen to the end of the run, and the zero-crossing finds no edge of it. -/
theorem heldLineResolvesToBoundary : Obligations.HeldLineResolvesToBoundary := by
  intro s t es k r inp now hi hr hunseen hes hrun hinp hz
  obtain ⟨hparams, hline, r', hr', hunseen'⟩ :=
    execAll_keeps (P := UnseenAt s.params k (s.prevIn.getLsbD (k + 1)))
      (fun e he _ _ => exec_keeps_unseenAt (hes e he)) ⟨rfl, rfl, r, hr, hunseen⟩ hrun
  obtain ⟨u, hu⟩ := exec_edge_of_init (execAll_keeps (fun _ _ _ _ _ => exec_init) hi hrun) inp now
  have hrec := exec_edge_record_resolved hu hr' hz (not_edgeTaken_of_line_eq (hinp.trans hline.symm) r')
  refine ⟨u, _, hu, hrec, ?_, rfl⟩
  simp [clearSeen_resolve, hunseen', hinp, hparams]

/-- Settles O22: every EDGE of the run finds the reference still too young. -/
theorem zeroCrossingBouncesAreIgnored : Obligations.ZeroCrossingBouncesAreIgnored := by
  intro s es _ hes t hrun
  exact (execAll_keeps (P := ReferenceIs s.params s.zcTs) (fun e he _ _ => exec_keeps_referenceIs (hes e he))
    ⟨rfl, rfl⟩ hrun).2

/-- Settles O23: every EDGE of the run finds the string's last edge still too young. -/
theorem stringBouncesAreIgnored : Obligations.StringBouncesAreIgnored := by
  intro s es k r _ hr hes t hrun
  exact (execAll_keeps (P := LastEdgeOf s.params k r) (fun e he _ _ => exec_keeps_lastEdgeOf (hes e he))
    ⟨rfl, r, hr, rfl, id⟩ hrun).2

/-- Settles O24: a RESET leaves every timestamp 0, so the age of each is `now` itself. -/
theorem startUpWindowRejects : Obligations.StartUpWindowRejects := by
  intro s inp0 inp now _ hfit hzc hstr
  refine ⟨_, rfl, exec_edge_start_up rfl (of_decide_eq_true hfit) hzc hstr rfl fun r hr => ?_⟩
  rw [List.eq_of_mem_replicate hr, StringRec.cleared]

end

/-! SUPPORT. Which event writes which element (60_exceptions.md R114), beside `exec_detector_frame`, and what a run
without the element's owner therefore keeps. -/

namespace Sys2Proof.Machine

/-- The Tick Counter and the output latch are TICK's. -/
theorem exec_tick_frame {i : Instr} {s t : State} (h : exec i s = .next t) (htick : i ≠ .tick)
    (hreset : ∀ inp, i ≠ .reset inp) : t.tick = s.tick ∧ t.out = s.out := by
  cases i with
  | tick => exact absurd rfl htick
  | edge inp now => rw [execEdge_frame h]; exact ⟨rfl, rfl⟩
  | config v => obtain ⟨-, rfl⟩ := execConfig_eq_next.1 h; exact ⟨rfl, rfl⟩
  | snap => obtain ⟨-, rfl⟩ := execSnap_eq_next.1 h; exact ⟨rfl, rfl⟩
  | reset inp => exact absurd rfl (hreset inp)

/-- The configuration elements are CONFIG's. -/
theorem exec_config_frame {i : Instr} {s t : State} (h : exec i s = .next t) (hconfig : ∀ v, i ≠ .config v)
    (hreset : ∀ inp, i ≠ .reset inp) :
    t.voltage = s.voltage ∧ t.maxdc = s.maxdc ∧ t.table = s.table ∧ t.tableBuilt = s.tableBuilt ∧
      t.cfgDegenerate = s.cfgDegenerate := by
  cases i with
  | tick => obtain ⟨-, -, thr, -, rfl⟩ := execTick_eq_next.1 h; exact ⟨rfl, rfl, rfl, rfl, rfl⟩
  | edge inp now => rw [execEdge_frame h]; exact ⟨rfl, rfl, rfl, rfl, rfl⟩
  | config v => exact absurd rfl (hconfig v)
  | snap => obtain ⟨-, rfl⟩ := execSnap_eq_next.1 h; exact ⟨rfl, rfl, rfl, rfl, rfl⟩
  | reset inp => exact absurd rfl (hreset inp)

/-- A RESET apart, an event completes only where `init` stands, and leaves it. -/
theorem exec_init_frame {i : Instr} {s t : State} (h : exec i s = .next t) (hreset : ∀ inp, i ≠ .reset inp) :
    t.init = s.init := by
  rw [exec_init h]
  cases i with
  | tick => exact (execTick_eq_next.1 h).1.symm
  | edge inp now => exact (execEdge_eq_next.1 h).1.symm
  | config v => exact (execConfig_eq_next.1 h).1.symm
  | snap => exact (execSnap_eq_next.1 h).1.symm
  | reset inp => exact absurd rfl (hreset inp)

/-- The table, its step count and its flag are these. -/
def ConfiguredAs (table : List Nat) (maxdc : Nat) (flag : Bool) (s : State) : Prop :=
  s.table = table ∧ s.maxdc = maxdc ∧ s.cfgDegenerate = flag

theorem exec_keeps_configuredAs {table : List Nat} {maxdc : Nat} {flag : Bool} {i : Instr}
    (hi : (∀ v, i ≠ .config v) ∧ ∀ inp, i ≠ .reset inp) {s t : State} (hs : ConfiguredAs table maxdc flag s)
    (h : exec i s = .next t) : ConfiguredAs table maxdc flag t := by
  obtain ⟨-, hmaxdc, htable, -, hflag⟩ := exec_config_frame h hi.1 hi.2
  rwa [ConfiguredAs, htable, hmaxdc, hflag]

/-- Every brightness is 0 and every output low. -/
def State.Dark (s : State) : Prop := (∀ r ∈ s.strings, r.brightness = 0) ∧ ∀ b ∈ s.out, b = false

/-- R120: no event but an EDGE lights anything, for no table entry is 0. -/
theorem exec_keeps_dark {i : Instr} (hi : notEdge i = true) {s t : State} (hs : s.Inv) (hd : s.Dark)
    (h : exec i s = .next t) : t.Dark := by
  obtain ⟨hbright, hout⟩ := hd
  cases i with
  | tick =>
    obtain ⟨hinit, hb, -⟩ := execTick_eq_next.1 h
    obtain rfl := Host.Outcome.next.inj ((exec_tick_of_inv hs hinit hb).symm.trans h)
    refine ⟨hbright, List.forall_mem_map.2 fun r hr => decide_eq_false ?_⟩
    rw [hbright r hr, ge_iff_le, Nat.not_le]
    exact tableEntry_pos hs.params_wf _ _
  | edge inp now => nomatch hi
  | config v => obtain ⟨-, rfl⟩ := execConfig_eq_next.1 h; exact ⟨hbright, hout⟩
  | snap => obtain ⟨-, rfl⟩ := execSnap_eq_next.1 h; exact ⟨hbright, hout⟩
  | reset inp =>
    cases h
    exact ⟨fun r hr => by rw [List.eq_of_mem_replicate hr, StringRec.cleared],
      fun b hb => List.eq_of_mem_replicate hb⟩

/-- A state of the invariant at the parameters `p`, all dark. -/
def DarkAt (p : Params) (s : State) : Prop := s.Inv ∧ s.params = p ∧ s.Dark

theorem exec_keeps_darkAt {p : Params} {i : Instr} (hi : i.wellFormed p = true ∧ notEdge i = true) {s t : State}
    (hs : DarkAt p s) (h : exec i s = .next t) : DarkAt p t := by
  obtain ⟨hinv, rfl, hd⟩ := hs
  exact ⟨exec_keeps_inv hinv hi.1 h, (exec_params_events h).1, exec_keeps_dark hi.2 hinv hd h⟩

end Sys2Proof.Machine

section

open Sys2Proof Sys2Proof.Machine

/-- Settles O43: the four frame lemmas. -/
theorem onlyTheOwnerWrites : Obligations.OnlyTheOwnerWrites := fun _ _ _ h hreset =>
  ⟨exec_init_frame h hreset, fun htick => exec_tick_frame h htick hreset,
    fun hconfig => exec_config_frame h hconfig hreset, fun hedge => exec_detector_frame h hedge hreset⟩

/-- Settles O47: the run holds no event that owns a configuration element. -/
theorem tableStandsUntilTheNextConfig : Obligations.TableStandsUntilTheNextConfig := by
  intro s t u v is h his hrun
  obtain ⟨-, rfl⟩ := execConfig_eq_next.1 h
  exact execAll_keeps (fun i hi _ _ => exec_keeps_configuredAs (his i hi)) ⟨rfl, rfl, rfl⟩ hrun

/-- Settles O29: each event keeps the invariant and the dark together. -/
theorem outputsStayLowUntilAnEdge : Obligations.OutputsStayLowUntilAnEdge := by
  intro s t is hs his hbright hout hrun
  obtain ⟨-, -, hdark⟩ := execAll_keeps (P := DarkAt s.params) (fun i hi _ _ => exec_keeps_darkAt (his i hi))
    ⟨hs, rfl, hbright, hout⟩ hrun
  exact hdark

/-- Settles O11: each of the five elements is given by the setting and the parameters. -/
theorem configForgetsEarlierState : Obligations.ConfigForgetsEarlierState := by
  intro s s' t t' v hp h h'
  obtain ⟨-, rfl⟩ := execConfig_eq_next.1 h
  obtain ⟨-, rfl⟩ := execConfig_eq_next.1 h'
  rw [hp]
  exact ⟨rfl, rfl, rfl, rfl, rfl⟩

/-- Settles O25: the tuple is the state's snapshot. -/
theorem snapReturnsTheTuple : Obligations.SnapReturnsTheTuple := by
  intro s hi
  refine ⟨_, s.snapshot, execSnap_eq_next.2 ⟨hi, rfl⟩, rfl, rfl, rfl, List.length_map _, fun k r hr => ?_, rfl⟩
  rw [State.snapshot, List.getElem?_map, hr, Option.map_some]

/-- Settles O27: RESET has one outcome in every state, which gives each element outright. -/
theorem resetGivesEveryElement : Obligations.ResetGivesEveryElement := by
  intro s inp
  refine ⟨_, rfl, rfl, rfl, rfl, rfl, rfl, rfl, rfl, rfl, rfl, List.length_replicate, List.length_replicate,
    fun k hk => ⟨?_, ?_⟩, rfl, rfl, rfl⟩
  · rw [List.getElem?_replicate_of_lt hk, StringRec.cleared]
  · exact List.getElem?_replicate_of_lt hk

/-- Settles O28: after the RESET no table is built. -/
theorem resetDiscardsTheTable : Obligations.ResetDiscardsTheTable := fun s inp _ =>
  (execAll_cons_of_next (i := .reset inp) (s := s) rfl).trans
    (execAll_cons_of_fault (tickFaultsWhileTableUnbuilt _ rfl rfl))

end

/-! SUPPORT. The check of the parameters against R6 in its own words (00_scope.md R6; log 2, log 14, log 16). -/

namespace Sys2Proof

theorem ascending_iff_pairwise (l : List Nat) : ascending l = true ↔ l.Pairwise (· < ·) := by
  rw [← List.isChain_iff_pairwise]
  induction l using ascending.induct with
  | case1 | case2 a => simp [ascending]
  | case3 a b rest ih => simp [ascending, ih]

theorem nonIncreasing_iff_pairwise (l : List Nat) : nonIncreasing l = true ↔ l.Pairwise (· ≥ ·) := by
  rw [← List.isChain_iff_pairwise]
  induction l using nonIncreasing.induct with
  | case1 | case2 a => simp [nonIncreasing]
  | case3 a b rest ih => simp [nonIncreasing, ih]

end Sys2Proof

namespace Sys2Proof.Machine

/-- R6 in the rule's own words, with `B_W <= ATOMIC_W` (log 14) and the canonical listing (log 2). -/
theorem wf_iff_meetsR6_and_canonical (p : Params) : p.Wf ↔ MeetsR6 p ∧ p.bW ≤ p.atomicW ∧ CanonicalRaw p := by
  constructor
  · intro h
    have hraw : ∀ v, v ≤ p.vfDv → p.maxdcRaw v ≤ 0 := fun _ => h.maxdcRaw_nonpos
    obtain ⟨hnstr, hpwmN, hlevels, hfits, ⟨hlen, hasc, hwin⟩, ⟨hlen', hdesc, hrange⟩, hwindows,
      ⟨hrise, hnamed⟩, hts, hatomic⟩ := h
    exact ⟨⟨hnstr, hpwmN, hlevels, hfits, ⟨hlen, (ascending_iff_pairwise _).1 hasc, hwin⟩,
      ⟨hlen', (nonIncreasing_iff_pairwise _).1 hdesc, hrange⟩, hwindows, hraw, hts⟩, hatomic,
      ⟨(ascending_iff_pairwise _).1 hrise, hnamed⟩⟩
  · rintro ⟨⟨hnstr, hpwmN, hlevels, hfits, ⟨hlen, hasc, hwin⟩, ⟨hlen', hdesc, hrange⟩, hwindows, -, hts⟩,
      hatomic, ⟨hrise, hnamed⟩⟩
    exact ⟨hnstr, hpwmN, hlevels, hfits, ⟨hlen, (ascending_iff_pairwise _).2 hasc, hwin⟩,
      ⟨hlen', (nonIncreasing_iff_pairwise _).2 hdesc, hrange⟩, hwindows,
      ⟨(ascending_iff_pairwise _).2 hrise, hnamed⟩, hts, hatomic⟩

/-- A step is refused for its parameters only where they fail the check. -/
theorem step_eq_badParameters_iff (s : State) : step s = .refused .badParameters ↔ ¬ s.params.Wf := by
  constructor
  · intro h hwf
    cases hev : s.events with
    | nil => nomatch (step_of_no_word hwf hev).symm.trans h
    | cons w rest =>
      obtain ⟨i, -, hexec⟩ | hres | hmal := step_runs_or_refuses hwf hev
      · exact exec_ne_refused i _ _ (hexec.symm.trans h)
      · nomatch hres.symm.trans h
      · nomatch hmal.symm.trans h
  · exact fun hwf => if_neg hwf

end Sys2Proof.Machine

section

open Sys2Proof Sys2Proof.Machine

/-- Settles O35: the step's check is R6 with the two conditions of the model's own. -/
theorem brokenParametersAreRefused : Obligations.BrokenParametersAreRefused := by
  intro s
  rw [step_eq_badParameters_iff, wf_iff_meetsR6_and_canonical, not_and_or, not_and_or, Nat.not_le]

end

/-! SUPPORT. Trace lines (30_encoding.md R57, R58): the reader's parts undo the printer's parts. A printed line is some
characters, none of them a `;`, and then a last word without blanks, so that cutting a comment leaves it whole. -/

namespace Sys2Proof

/-! ## Comments -/

theorem withoutComment_eq_rdropWhile (line : List Char) :
    withoutComment line = (line.takeWhile (· != ';')).rdropWhile (· == ' ') := rfl

/-- The line ends in a word without blanks, and nowhere in it begins a comment. -/
def IsPlain (line : List Char) : Prop :=
  ∃ front word, line = front ++ word ∧ word ≠ [] ∧ (∀ c ∈ front, c ≠ ';') ∧ ∀ c ∈ word, c ≠ ';' ∧ c ≠ ' '

theorem IsPlain.rdropWhile {line : List Char} (h : IsPlain line) : line.rdropWhile (· == ' ') = line := by
  obtain ⟨front, word, rfl, hne, -, hword⟩ := h
  refine List.rdropWhile_eq_self_iff.2 fun hl => ?_
  rw [List.getLast_append_of_ne_nil hl hne]
  simp [(hword _ (List.getLast_mem hne)).2]

theorem IsPlain.no_comment {line : List Char} (h : IsPlain line) : ∀ c ∈ line, (c != ';') = true := by
  obtain ⟨front, word, rfl, -, hfront, hword⟩ := h
  intro c hc
  obtain hc | hc := List.mem_append.1 hc
  · exact bne_iff_ne.2 (hfront c hc)
  · exact bne_iff_ne.2 (hword c hc).1

theorem withoutComment_of_isPlain {line : List Char} (h : IsPlain line) : withoutComment line = line := by
  rw [withoutComment_eq_rdropWhile, List.takeWhile_eq_self_iff.2 h.no_comment, h.rdropWhile]

theorem withoutComment_append_comment {line : List Char} (h : IsPlain line) (comment : List Char) :
    withoutComment (line ++ ' ' :: ';' :: comment) = line := by
  have htake : (' ' :: ';' :: comment).takeWhile (· != ';') = [' '] := by simp
  rw [withoutComment_eq_rdropWhile, List.takeWhile_append_of_pos h.no_comment, htake,
    List.rdropWhile_concat_pos _ _ _ (by decide), h.rdropWhile]

/-! ## Keywords -/

theorem afterPrefix_append (pre cs : List Char) : afterPrefix pre (pre ++ cs) = some cs := by
  induction pre with
  | nil => rfl
  | cons a pre ih => simp [afterPrefix, ih]

theorem afterPrefix_eq_none_of_notMem {a : Char} {pre : List Char} (ha : a ∈ pre) :
    ∀ {cs : List Char}, a ∉ cs → afterPrefix pre cs = none := by
  induction pre with
  | nil => nomatch ha
  | cons b pre ih =>
    intro cs hcs
    cases cs with
    | nil => rfl
    | cons c cs =>
      obtain ⟨hac, hcs⟩ := List.ne_and_not_mem_of_not_mem_cons hcs
      rw [afterPrefix]
      split
      · next hbc => exact ih ((List.mem_cons.1 ha).resolve_left fun hab => hac (hab.trans hbc)) hcs
      · rfl

theorem readEvents_ticks (p : Params) (rest : List Char) : readEvents p (kwTicks ++ rest) = readTicks rest := by
  simp [readEvents, kwTicks, kwTick, kwSnap, afterPrefix]

theorem readEvents_edge (p : Params) (rest : List Char) : readEvents p (kwEdge ++ rest) = readEdge p rest := by
  simp [readEvents, kwTicks, kwTick, kwSnap, kwEdge, afterPrefix]

theorem readEvents_config (p : Params) (rest : List Char) :
    readEvents p (kwConfig ++ rest) = (readVolts p rest).map fun v => [.config v] := by
  simp [readEvents, kwTicks, kwTick, kwSnap, kwEdge, kwConfig, afterPrefix]

theorem readEvents_reset (p : Params) (rest : List Char) : readEvents p (kwReset ++ rest) = readReset p rest := by
  simp [readEvents, kwTicks, kwTick, kwSnap, kwEdge, kwConfig, kwReset, afterPrefix]

/-! ## Decimal numbers -/

/-- The characters of printed numbers. -/
def IsDigitChar (c : Char) : Prop := ∃ d < 10, c = Nat.digitChar d

theorem IsDigitChar.ne {c : Char} (h : IsDigitChar c) : (c ≠ ';' ∧ c ≠ ' ') ∧ c ≠ 'x' := by
  have hall : ∀ d < 10, (Nat.digitChar d ≠ ';' ∧ Nat.digitChar d ≠ ' ') ∧ Nat.digitChar d ≠ 'x' := by decide
  obtain ⟨d, hd, rfl⟩ := h
  exact hall d hd

theorem decimalDigit_digitChar : ∀ d < 10, decimalDigit (Nat.digitChar d) = some d := by decide

theorem digitsFrom_digitChar_cons {d : Nat} (hd : d < 10) (a : Nat) (cs : List Char) :
    digitsFrom 10 decimalDigit a (Nat.digitChar d :: cs) = digitsFrom 10 decimalDigit (a * 10 + d) cs := by
  rw [digitsFrom, decimalDigit_digitChar d hd]

/-- Reading the digits of `n` brings the reader to `n`, in front of what follows them. -/
theorem digitsFrom_decimalFrom (fuel : Nat) : ∀ {n : Nat} (acc : List Char), n < 10 ^ fuel →
    digitsFrom 10 decimalDigit 0 (decimalFrom fuel n acc) = digitsFrom 10 decimalDigit n acc := by
  induction fuel with
  | zero =>
    intro n acc hn
    obtain rfl := Nat.lt_one_iff.1 hn
    rfl
  | succ fuel ih =>
    intro n acc hn
    rw [decimalFrom]
    split
    · next hlt => rw [digitsFrom_digitChar_cons hlt, Nat.zero_mul, Nat.zero_add]
    · have hmod : n % 10 < 10 := Nat.mod_lt n (by decide)
      have hdiv : n / 10 < 10 ^ fuel := Nat.div_lt_of_lt_mul (by rwa [Nat.mul_comm, ← Nat.pow_succ])
      rw [ih _ hdiv, digitsFrom_digitChar_cons hmod, Nat.div_add_mod']

theorem isDigitChar_of_mem_decimalFrom (fuel : Nat) : ∀ {n : Nat} {acc : List Char},
    (∀ c ∈ acc, IsDigitChar c) → ∀ c ∈ decimalFrom fuel n acc, IsDigitChar c := by
  induction fuel with
  | zero => exact id
  | succ fuel ih =>
    intro n acc hacc
    rw [decimalFrom]
    split
    · next hlt => exact List.forall_mem_cons.2 ⟨⟨n, hlt, rfl⟩, hacc⟩
    · exact ih (List.forall_mem_cons.2 ⟨⟨n % 10, Nat.mod_lt n (by decide), rfl⟩, hacc⟩)

theorem decimalFrom_ne_nil (fuel : Nat) :
    ∀ (n : Nat) {acc : List Char}, acc ≠ [] → decimalFrom fuel n acc ≠ [] := by
  induction fuel with
  | zero => exact fun _ _ => id
  | succ fuel ih =>
    intro n acc _
    rw [decimalFrom]
    split
    · exact List.cons_ne_nil _ _
    · exact ih _ (List.cons_ne_nil _ _)

theorem decimal_ne_nil (n : Nat) : decimal n ≠ [] := by
  rw [decimal, decimalFrom]
  split
  · exact List.cons_ne_nil _ _
  · exact decimalFrom_ne_nil 9 _ (List.cons_ne_nil _ _)

theorem isDigitChar_of_mem_decimal {n : Nat} : ∀ c ∈ decimal n, IsDigitChar c :=
  isDigitChar_of_mem_decimalFrom 10 nofun

theorem number_of_ne_nil {base : Nat} {digit : Char → Option Nat} {cs : List Char} (h : cs ≠ []) :
    number base digit cs = digitsFrom base digit 0 cs := by
  cases cs with
  | nil => exact absurd rfl h
  | cons c cs => rfl

/-- A number of at most ten digits reads back from its decimal form. -/
theorem number_decimal {n : Nat} (hn : n < 10 ^ 10) : number 10 decimalDigit (decimal n) = some n := by
  rw [number_of_ne_nil (decimal_ne_nil n), decimal, digitsFrom_decimalFrom 10 [] hn, digitsFrom]

theorem below_some {bound v : Nat} (h : v < bound) : below bound (some v) = some v := if_pos h

theorem readTime_decimal {p : Params} {now : Stamp} (h : now.toNat < 2 ^ p.tsW) :
    readTime p (decimal now.toNat) = some now := by
  have hhex : afterPrefix kwHex (decimal now.toNat) = none :=
    afterPrefix_eq_none_of_notMem (a := 'x') (by decide) fun hx => (isDigitChar_of_mem_decimal _ hx).ne.2 rfl
  have hlt := now.isLt
  simp only [readTime, hhex, number_decimal (show now.toNat < 10 ^ 10 by omega), below_some h, Option.map_some,
    BitVec.ofNat_toNat, BitVec.setWidth_eq]

theorem readVolts_decimal {p : Params} {v : Setting} (h : v.toNat < 2 ^ p.vW) :
    readVolts p (decimal v.toNat) = some v := by
  have hlt := v.isLt
  have hmin : v.toNat < 2 ^ min p.vW 16 := by
    obtain hw | hw := Nat.le_total p.vW 16
    · rwa [Nat.min_eq_left hw]
    · rwa [Nat.min_eq_right hw]
  rw [readVolts, number_decimal (by omega), below_some hmin, Option.map_some, BitVec.ofNat_toNat,
    BitVec.setWidth_eq]

theorem readTicks_decimal {n : Nat} (hn : n < 10 ^ 10) :
    readTicks (decimal n) = if 1 ≤ n then some (List.replicate n .tick) else none := by
  rw [readTicks, number_decimal hn]

/-! ## Line levels -/

theorem isDigitChar_of_mem_bitDigits (inp : Lines) : ∀ n, ∀ c ∈ bitDigits inp n, IsDigitChar c
  | 0 => nofun
  | n + 1 => by
    refine List.forall_mem_cons.2 ⟨?_, isDigitChar_of_mem_bitDigits inp n⟩
    split
    · exact ⟨1, by decide, rfl⟩
    · exact ⟨0, by decide, rfl⟩

theorem readBitDigits_bit_cons (n acc : Nat) (b : Bool) (cs : List Char) :
    readBitDigits (n + 1) acc ((if b then '1' else '0') :: cs) = readBitDigits n (2 * acc + b.toNat) cs := by
  cases b <;> rfl

/-- Reading the levels of lines `n-1 .. 0` appends their `n` bits. -/
theorem readBitDigits_bitDigits (inp : Lines) (rest : List Char) (n : Nat) : ∀ acc : Nat,
    readBitDigits n acc (bitDigits inp n ++ rest) = some (acc * 2 ^ n + inp.toNat % 2 ^ n, rest) := by
  induction n with
  | zero => intro acc; simp [readBitDigits, bitDigits, Nat.mod_one]
  | succ n ih =>
    intro acc
    have hbit : (inp.getLsbD n).toNat = inp.toNat / 2 ^ n % 2 := Nat.toNat_testBit inp.toNat n
    have hmod : inp.toNat % 2 ^ (n + 1) = inp.toNat % 2 ^ n + 2 ^ n * (inp.toNat / 2 ^ n % 2) := Nat.mod_pow_succ
    rw [bitDigits, List.cons_append, readBitDigits_bit_cons, ih, hmod, hbit]
    congr 2
    ring

theorem readBits_printBits {p : Params} {inp : Lines} (h : inp.toNat < 2 ^ (p.nstr + 1)) (rest : List Char) :
    readBits p (printBits p inp ++ rest) = some (inp, rest) := by
  rw [readBits, printBits, List.append_assoc, afterPrefix_append]
  simp [readBitDigits_bitDigits, Nat.mod_eq_of_lt h]

/-! ## Printed lines -/

theorem isPlain_of_digits {front word : List Char} (hfront : ∀ c ∈ front, c ≠ ';') (hne : word ≠ [])
    (hword : ∀ c ∈ word, IsDigitChar c) : IsPlain (front ++ word) :=
  ⟨front, word, rfl, hne, hfront, fun c hc => (hword c hc).ne.1⟩

theorem ne_semicolon_of_mem_printBits {p : Params} {inp : Lines} : ∀ c ∈ printBits p inp, c ≠ ';' :=
  List.forall_mem_append.2 ⟨by simp [kwBits], fun c hc => (isDigitChar_of_mem_bitDigits inp _ c hc).ne.1.1⟩

theorem isPlain_printLine (p : Params) (i : Instr) : IsPlain (printLine p i) := by
  cases i with
  | tick => exact ⟨[], kwTick, rfl, by simp [kwTick], nofun, by simp [kwTick]⟩
  | snap => exact ⟨[], kwSnap, rfl, by simp [kwSnap], nofun, by simp [kwSnap]⟩
  | config v => exact isPlain_of_digits (by simp [kwConfig]) (decimal_ne_nil _) isDigitChar_of_mem_decimal
  | edge inp now =>
    refine isPlain_of_digits ?_ (decimal_ne_nil _) isDigitChar_of_mem_decimal
    exact List.forall_mem_append.2
      ⟨List.forall_mem_append.2 ⟨by simp [kwEdge], ne_semicolon_of_mem_printBits⟩, by simp [kwTime]⟩
  | reset inp =>
    rw [printLine, printBits, ← List.append_assoc]
    exact isPlain_of_digits (by simp [kwReset, kwBits]) (List.cons_ne_nil _ _) (isDigitChar_of_mem_bitDigits inp _)

theorem readEvents_printLine {p : Params} {i : Instr} (hi : i.wellFormed p = true) :
    readEvents p (printLine p i) = some [i] := by
  cases i with
  | tick => rfl
  | snap => rfl
  | config v =>
    rw [printLine, readEvents_config, readVolts_decimal (Machine.wellFormed_config_iff.1 hi), Option.map_some]
  | edge inp now =>
    obtain ⟨hinp, hnow⟩ := Machine.wellFormed_edge_iff.1 hi
    rw [printLine, List.append_assoc, List.append_assoc, readEvents_edge]
    simp only [readEdge, readBits_printBits hinp, afterPrefix_append, readTime_decimal hnow, Option.map_some]
  | reset inp =>
    have hbits := readBits_printBits (Machine.wellFormed_reset_iff.1 hi) []
    rw [List.append_nil] at hbits
    rw [printLine, readEvents_reset, readReset, hbits]

/-- R58: the pseudo-event stands for its number of TICKs, and for none only by being refused. -/
theorem readLine_ticks (p : Params) {n : Nat} (hn : n < 10 ^ 10) : readLine p (kwTicks ++ decimal n) =
    if 1 ≤ n then some (List.replicate n .tick) else none := by
  have hplain : IsPlain (kwTicks ++ decimal n) :=
    isPlain_of_digits (by simp [kwTicks]) (decimal_ne_nil n) isDigitChar_of_mem_decimal
  rw [readLine, withoutComment_of_isPlain hplain, readEvents_ticks, readTicks_decimal hn]

end Sys2Proof

section

open Sys2Proof

/-- Settles O39: a printed line is plain, so the reader sees it whole, and each part reads back. -/
theorem traceLineRoundTrip : Obligations.TraceLineRoundTrip := by
  intro p i comment _ hi
  have hplain := isPlain_printLine p i
  rw [readLine, readLine, withoutComment_of_isPlain hplain, withoutComment_append_comment hplain]
  exact ⟨readEvents_printLine hi, readEvents_printLine hi⟩

/-- Settles O40: the line reads as its number's count of TICKs, and `['0']` is the decimal form of 0. -/
theorem tickPseudoEventExpands : Obligations.TickPseudoEventExpands := by
  refine ⟨fun p n hpos hn => ?count, fun p => readLine_ticks p (n := 0) (by decide)⟩
  case count => rw [readLine_ticks p hn, if_pos hpos]

end
